-- ==== Sys2Proof/Word.lean ====
section
/-! DEFINITION. The two word types of the block: the byte (20_memory.md R41) and the 16-bit number of the
checksum (40_crc.md R91). -/

namespace Sys2Proof

/-- A byte, 8 bits, the unit of every address space (00_scope.md R10, 20_memory.md R41). -/
abbrev Byte := BitVec 8

/-- An unsigned 16-bit number: the checksum and the CRC working register (40_crc.md R90, R91). -/
abbrev Half := BitVec 16

end Sys2Proof
end

