-- ==== Sys2Proof/Config.lean ====
section
/-! DEFINITION. The configuration record of 00_scope.md R6 and 10_state.md R27, and the free values: what the
spec leaves open is an opaque constant, of which no proof can see a value. The values this hardware takes stand
in Machine/Constants.lean. -/

namespace Sys2Proof

/-- SIGN_BYTES, one bit (00_scope.md R6, R14): layout 0 has no sign byte between targetAddr and command, layout 1
has one (30_encoding.md R61, R62). -/
inductive Layout where
  | layout0
  | layout1
deriving DecidableEq, Repr

/-- The parameters of the block (00_scope.md R6). Read-only to every operation and fixed when the instance is made
(10_state.md R27). -/
structure Config where
  /-- STALE_WINDOW, milliseconds. -/
  staleWindow : Nat
  /-- BUF_CAP, bytes. -/
  bufCap : Nat
  /-- SIGN_BYTES. -/
  layout : Layout
  /-- SIGN_VALUE, written by ENC when SIGN_BYTES = 1. -/
  signValue : Byte
  /-- VERIFY_CRC. -/
  verifyCrc : Bool
  /-- PREFIX_MAX, `none` when unbounded. -/
  prefixMax : Option Nat
  /-- TIME_BITS, `none` when unbounded. -/
  timeBits : Option Nat
deriving DecidableEq, Repr

/-- FREE VALUE. SIGN_VALUE of this hardware: the parameter is OPEN and has no default (00_scope.md R6,
93_implementation_defined.md U2; log 9). -/
opaque Config.openSignValue : Byte

/-- FREE VALUE. The outcome of a staleness check made when `now` lies before `last_activity`: a free choice between
stale and not stale (42_reassembler.md R152, 93_implementation_defined.md U9; log 7). The argument is the draw
counter of the State. -/
opaque Config.freeStale : Nat → Bool

/-- FREE VALUE. The outcome the transport's `send` returns (43_paths.md R161); the spec gives it no form
(91_not_in_source.md N25), so an outcome is a token, a natural number (log 8). The argument is the draw counter of
the State. -/
opaque Config.freeSendOutcome : Nat → Nat

end Sys2Proof
end

