-- ==== Sys2Proof/Machine/Constants.lean ====
section
/-! DEFINITION. The hardwired constants of 00_scope.md R7, the command codes of 30_encoding.md R69, the select codes
of R77, the masks and matches of spec/opcode_table.json, and the parameter values of this hardware (00_scope.md R6).
One named constant for each number of R7, so that one correction reaches every rule (the literals are unaudited,
log 19). -/

namespace Sys2Proof

/-- HEAD0, the first byte of the head marker (R7). -/
def head0 : Byte := 0x7E#8
/-- HEAD1, the second byte of the head marker (R7). -/
def head1 : Byte := 0x55#8
/-- SRC_ADDR, the sourceAddr of every frame ENC builds; a pair, not a number (R7, 20_memory.md R43). -/
def srcAddr : Byte × Byte := (0x00#8, 0x00#8)
/-- TGT_ADDR, the targetAddr of every frame ENC builds; a pair, not a number (R7, 20_memory.md R43). -/
def tgtAddr : Byte × Byte := (0x01#8, 0x00#8)
/-- RESERVED, the reserved byte ENC writes (R7). -/
def reservedByte : Byte := 0x00#8
/-- CHECK_FLOOR: RSM tests for completion only when the fill count is greater (R7, 42_reassembler.md R137). -/
def checkFloor : Nat := 10
/-- DEC_MIN: DEC refuses a buffer shorter than this (R7, 41_frame_codec.md R111). -/
def decMin : Nat := 10
/-- CRC_POLY, the polynomial in reflected form (R7, 40_crc.md R91). -/
def crcPoly : Half := 0x8408#16
/-- CRC_INIT, the initial value of the working register (R7, 40_crc.md R91). -/
def crcInit : Half := 0xFFFF#16
/-- CRC_XOROUT, the final one's complement as a mask (R7, 40_crc.md R91). -/
def crcXorOut : Half := 0xFFFF#16
/-- LEN_MAX, the largest value of the length byte (R7). -/
def lenMax : Nat := 255

/-- SIGN_BYTES as a number (30_encoding.md R62). -/
def Layout.signBytes : Layout → Nat
  | .layout0 => 0
  | .layout1 => 1

/-- FIXED_BYTES = 6 + SIGN_BYTES, the bytes from sourceAddr through reserved (R7). -/
def Layout.fixedBytes (l : Layout) : Nat := 6 + l.signBytes

/-- The bytes ahead of the counted region: head and length (30_encoding.md R64). -/
def countedAt : Nat := 3

/-- The size of the checksum field (30_encoding.md R61). -/
def checksumBytes : Nat := 2

/-- The counted bytes that are no parameters: FIXED_BYTES and the checksum (30_encoding.md R63). -/
def Layout.overhead (l : Layout) : Nat := l.fixedBytes + checksumBytes

/-- The offset of the parameters: they follow the FIXED_BYTES (30_encoding.md R61, R62). -/
def Layout.parametersAt (l : Layout) : Nat := countedAt + l.fixedBytes

/-- The offset of the reserved byte, the last of the FIXED_BYTES (30_encoding.md R61, R62). -/
def Layout.reservedAt (l : Layout) : Nat := l.parametersAt - 1

/-- The offset of the command byte, the last but one of the FIXED_BYTES (30_encoding.md R61, R62). -/
def Layout.commandAt (l : Layout) : Nat := l.parametersAt - 2

/-- N_MAX = 247 - SIGN_BYTES, the largest parameter count ENC accepts (R7, 41_frame_codec.md R101). -/
def Layout.nMax (l : Layout) : Nat := lenMax - l.overhead

/-- TAG_FEEDBACK (30_encoding.md R69). -/
def cmdTagFeedback : Byte := 0x15#8
/-- READ_TAG (30_encoding.md R69). -/
def cmdReadTag : Byte := 0x16#8
/-- READ_BLOCK (30_encoding.md R69). -/
def cmdReadBlock : Byte := 0x70#8
/-- WRITE_BLOCK (30_encoding.md R69). -/
def cmdWriteBlock : Byte := 0x71#8

/-- The four command codes the source names (30_encoding.md R69). -/
def namedCommands : List Byte := [cmdTagFeedback, cmdReadTag, cmdReadBlock, cmdWriteBlock]

/-- OPSEL of RESET (30_encoding.md R77). -/
def opselReset : Nat := 0
/-- OPSEL of CRC16 (30_encoding.md R77). -/
def opselCrc16 : Nat := 1
/-- OPSEL of ENCODE (30_encoding.md R77). -/
def opselEncode : Nat := 2
/-- OPSEL of DECODE (30_encoding.md R77). -/
def opselDecode : Nat := 3
/-- OPSEL of CONSUME (30_encoding.md R77). -/
def opselConsume : Nat := 4
/-- The first reserved select code; 0x5 to 0xF are reserved (30_encoding.md R77). -/
def opselFirstReserved : Nat := 5

/-- The column "mask" of the four named FRAME0 rows: every header byte but the length byte (30_encoding.md R70). -/
def frame0Mask : List Byte := [0xFF#8, 0xFF#8, 0x00#8, 0xFF#8, 0xFF#8, 0xFF#8, 0xFF#8, 0xFF#8, 0xFF#8]

/-- The column "match" of a FRAME0 row with command `cc`: `7E 55 00 00 00 01 00 cc 00` (30_encoding.md R70). -/
def frame0Match (cc : Byte) : List Byte :=
  [head0, head1, 0x00#8, srcAddr.1, srcAddr.2, tgtAddr.1, tgtAddr.2, cc, reservedByte]

/-- The column "decode_mask" of the four named FRAME0 rows: the marker and the command byte (30_encoding.md R75). -/
def frame0DecodeMask : List Byte := [0xFF#8, 0xFF#8, 0x00#8, 0x00#8, 0x00#8, 0x00#8, 0x00#8, 0xFF#8, 0x00#8]

/-- The column "decode_match" of a FRAME0 row with command `cc`. -/
def frame0DecodeMatch (cc : Byte) : List Byte :=
  [head0, head1, 0x00#8, 0x00#8, 0x00#8, 0x00#8, 0x00#8, cc, 0x00#8]

/-- The mask of FRAME_LAYOUT1 with the command byte included; the length and sign bytes are free (R62, R106). -/
def frame1Mask : List Byte := [0xFF#8, 0xFF#8, 0x00#8, 0xFF#8, 0xFF#8, 0xFF#8, 0xFF#8, 0x00#8, 0xFF#8, 0xFF#8]

/-- The match of FRAME_LAYOUT1 with command `cc`. -/
def frame1Match (cc : Byte) : List Byte :=
  [head0, head1, 0x00#8, srcAddr.1, srcAddr.2, tgtAddr.1, tgtAddr.2, 0x00#8, cc, reservedByte]

/-- What the receive side can rely on for a layout-1 frame of a command: the marker and the command byte
(R75 read in layout 1). -/
def frame1DecodeMask : List Byte := [0xFF#8, 0xFF#8, 0x00#8, 0x00#8, 0x00#8, 0x00#8, 0x00#8, 0x00#8, 0xFF#8, 0x00#8]

/-- The pattern that goes with `frame1DecodeMask`. -/
def frame1DecodeMatch (cc : Byte) : List Byte :=
  [head0, head1, 0x00#8, 0x00#8, 0x00#8, 0x00#8, 0x00#8, 0x00#8, cc, 0x00#8]

/-- The mask of RX_FRAME: the marker (42_reassembler.md R144). -/
def rxMask : List Byte := [0xFF#8, 0xFF#8, 0x00#8]

/-- The match of RX_FRAME. -/
def rxMatch : List Byte := [head0, head1, 0x00#8]

/-- The parameter values of this hardware (00_scope.md R6, column "value here"). -/
def hardwareConfig : Config where
  staleWindow := 1000
  bufCap := 100
  layout := .layout0
  signValue := Config.openSignValue
  verifyCrc := false
  prefixMax := none
  timeBits := none

end Sys2Proof
end

