-- ==== Sys2Proof/Machine/Operands.lean ====
section
/-! DEFINITION. Operand access: the sequence and bit notation of 00_scope.md R10 to R12, the byte order of the
checksum (20_memory.md R42), and the mask-and-match test of the opcode table (30_encoding.md R70). The block's
operands are byte sequences, single bytes and numbers; nothing is sign-extended or scaled (30_encoding.md R66). -/

namespace Sys2Proof

/-- `s[a:b]`, the half-open slice, empty when `a >= b` (00_scope.md R11). -/
def slice (s : List Byte) (a b : Nat) : List Byte := (s.drop a).take (b - a)

/-- `lo8(v) = v[7:0]` (00_scope.md R12). -/
def lo8 (v : Half) : Byte := v.extractLsb' 0 8

/-- `hi8(v) = v[15:8]` (00_scope.md R12). -/
def hi8 (v : Half) : Byte := v.extractLsb' 8 8

/-- `zext_16(b)` (00_scope.md R12). -/
def zext16 (b : Byte) : Half := b.setWidth 16

/-- The 16-bit number whose low byte stands first (20_memory.md R42; `zext_16(lo) + 256 * zext_16(hi)` of
41_frame_codec.md R112). -/
def halfOfLowHigh (lo hi : Byte) : Half := zext16 lo + 256#16 * zext16 hi

/-- The two bytes of a checksum on the wire, low byte first (20_memory.md R42). -/
def wireBytes (c : Half) : List Byte := [lo8 c, hi8 c]

/-- One byte of an operand sequence by index; no value outside the sequence (20_memory.md R56). -/
def byteAt (s : List Byte) (i : Nat) : Option Byte := s[i]?

/-- Mask and match over the leading bytes of a word, byte 0 first (30_encoding.md R70): every byte of the word, cut
by its mask byte, equals its pattern byte, and the word is at least as long as the mask. -/
def maskMatch : List Byte → List Byte → List Byte → Bool
  | m :: ms, p :: ps, w :: ws => (w &&& m == p) && maskMatch ms ps ws
  | [], [], _ => true
  | _, _, _ => false

/-- The same parameters in layout 1, the configuration of FRAME_LAYOUT1 (41_frame_codec.md R106). -/
def Config.inLayout1 (cfg : Config) : Config := { cfg with layout := .layout1 }

/-- The clock as a register of TIME_BITS bits shows it; with TIME_BITS unbounded it is the operand `now` itself
(42_reassembler.md R152). DESIGN CHOICE for a finite width, log 10. -/
def clockReading (cfg : Config) (now : Nat) : Nat :=
  match cfg.timeBits with
  | none => now
  | some w => now % 2 ^ w

/-- Whether a prefix of `k` bytes is longer than PREFIX_MAX (41_frame_codec.md R101). -/
def prefixTooLong (cfg : Config) (k : Nat) : Bool :=
  match cfg.prefixMax with
  | none => false
  | some m => decide (m < k)

end Sys2Proof
end

