-- ==== Sys2Proof/Syntax.lean ====
section
/-! DEFINITION. The operations of the block as one inductive type, one constructor per row of spec/opcode_table.json,
and the requests in which the environment presents them (30_encoding.md R60 to R79; log 5, log 6, log 13 to log 16).
The name `end` of CRC16's operand is `stop` here and the name `prefix` is `sendPrefix`, both words being Lean's. -/

namespace Sys2Proof

/-- Where the frame ENCODE builds goes: back to the caller (the operation ENCODE), or to the transport under a report
id (the pseudo-operation TXPATH of 43_paths.md R160, "ENCODE followed by the transport's send", 30_encoding.md R78;
log 15). -/
inductive TxDest where
  | caller
  | transport (reportId : Int)
deriving DecidableEq, Repr

/-- Where the frames CONSUME emits go: back to the caller (the operation CONSUME), or each to DECODE (the
pseudo-operation RXPATH of 43_paths.md R162, "CONSUME followed by DECODE of each emitted frame"; log 15). -/
inductive RxDest where
  | caller
  | decoder
deriving DecidableEq, Repr

/-- The two things the block does with a frame of a given command: ENC writes it (41_frame_codec.md R102) or DEC reads
it (R112). The rules of the command rows, R122 to R126, give a frame no meaning "beyond rules R102 and R112" (log 13). -/
inductive FrameUse where
  | build (dest : TxDest) (sendPrefix parameters : List Byte)
  | read (bytes : List Byte)
deriving DecidableEq, Repr

/-- One constructor per row of spec/opcode_table.json. -/
inductive Instr where
  /-- RESET (70_reset_and_hazards.md R200). -/
  | reset
  /-- CRC16 (40_crc.md R90). -/
  | crc16 (bytes : List Byte) (start stop : Nat)
  /-- ENCODE (41_frame_codec.md R100), and TXPATH by its destination (43_paths.md R160). -/
  | encode (dest : TxDest) (sendPrefix : List Byte) (command : Byte) (parameters : List Byte)
  /-- DECODE (41_frame_codec.md R110). -/
  | decode (bytes : List Byte)
  /-- CONSUME (42_reassembler.md R130), and RXPATH by its destination (43_paths.md R162). -/
  | consume (dest : RxDest) (now : Nat) (chunk : List Byte)
  /-- PUSH, the micro-operation inside CONSUME (42_reassembler.md R132). -/
  | push (b : Byte)
  /-- OPSEL_RESERVED, the select codes 0x5 to 0xF (30_encoding.md R77). -/
  | opselReserved (sel : BitVec 4)
  /-- TAG_FEEDBACK, command 0x15 (41_frame_codec.md R122). -/
  | tagFeedback (use : FrameUse)
  /-- READ_TAG, command 0x16 (41_frame_codec.md R123). -/
  | readTag (use : FrameUse)
  /-- READ_BLOCK, command 0x70 (41_frame_codec.md R124). -/
  | readBlock (use : FrameUse)
  /-- WRITE_BLOCK, command 0x71 (41_frame_codec.md R125). -/
  | writeBlock (use : FrameUse)
  /-- FRAME_ANY, any other command byte (41_frame_codec.md R126). -/
  | frameAny (command : Byte) (use : FrameUse)
  /-- FRAME_LAYOUT1, a frame of layout 1 (41_frame_codec.md R106, 30_encoding.md R62). -/
  | frameLayout1 (command : Byte) (use : FrameUse)
  /-- RX_FRAME, a frame on the receive side (42_reassembler.md R144). -/
  | rxFrame (now : Nat) (frame : List Byte)
deriving DecidableEq, Repr

/-- The column "format" of spec/opcode_table.json. -/
inductive Format where
  | op
  | byte
  | frame0
  | frame1
  | frameRx
deriving DecidableEq, Repr

/-- An operand as the environment presents it. The spec gives operands no encoding (30_encoding.md R77), so they are
values, not bits (log 6). `toTransport` and `toDecoder` say that the result goes to the transport or to DEC. -/
inductive Operand where
  | num (n : Nat)
  | byte (b : Byte)
  | seq (bytes : List Byte)
  | toTransport (reportId : Int)
  | toDecoder
deriving DecidableEq, Repr

/-- An operation as presented to the block: the format, the word whose bits spec/opcode_table.json gives (for a
received frame the whole frame from its head on), and the operands. -/
structure Request where
  format : Format
  word : List Byte
  operands : List Operand
deriving DecidableEq, Repr

/-- Why a request is no operation of the block. -/
inductive DecodeError where
  /-- The word is shorter or longer than the format's. -/
  | wordSize
  /-- The word of format OP is no four-bit select code. -/
  | selectorSize
  /-- The word does not match the mask of the row. -/
  | patternMismatch
  /-- The operands are not those of the operation. -/
  | operandForm
deriving DecidableEq, Repr

end Sys2Proof
end

