-- ==== Sys2Proof/WellFormed.lean ====
section
/-! DEFINITION. Which terms of `Instr` stand for an encoding of spec/opcode_table.json. Operand values are unrestricted:
a parameter list that is too long or a CRC16 range that leaves the bytes is well-formed and has the outcome the rules
give it (41_frame_codec.md R101, 40_crc.md R96). -/

namespace Sys2Proof

/-- A frame to build is unrestricted; the bytes of a frame to read match the row's receive-side pattern. -/
def FrameUse.fits (mask pattern : List Byte) : FrameUse → Bool
  | .build _ _ _ => true
  | .read bytes => maskMatch mask pattern bytes

/-- Well-formedness of an operation. FRAME_ANY stands for the commands that have no row of their own
(41_frame_codec.md R126, "Any other command byte"). -/
def Instr.wf : Instr → Bool
  | .reset => true
  | .crc16 _ _ _ => true
  | .encode _ _ _ _ => true
  | .decode _ => true
  | .consume _ _ _ => true
  | .push _ => true
  | .opselReserved sel => decide (opselFirstReserved ≤ sel.toNat)
  | .tagFeedback use => use.fits frame0DecodeMask (frame0DecodeMatch cmdTagFeedback)
  | .readTag use => use.fits frame0DecodeMask (frame0DecodeMatch cmdReadTag)
  | .readBlock use => use.fits frame0DecodeMask (frame0DecodeMatch cmdReadBlock)
  | .writeBlock use => use.fits frame0DecodeMask (frame0DecodeMatch cmdWriteBlock)
  | .frameAny cc use => !namedCommands.contains cc && use.fits frame0DecodeMask (frame0DecodeMatch cc)
  | .frameLayout1 cc use => use.fits frame1DecodeMask (frame1DecodeMatch cc)
  | .rxFrame _ frame => maskMatch rxMask rxMatch frame

end Sys2Proof
end

