-- ==== Sys2Proof/Decode.lean ====
section
/-! DEFINITION. The decoder, total on any request, and after it the encoder. The bits are those of
spec/opcode_table.json: the four-bit OPSEL (30_encoding.md R77) in the low half of one byte, the PUSH byte, and the
frame headers with byte 0 the most significant (R70). Operands have no encoding in the spec and are presented as
values (log 6). -/

namespace Sys2Proof

/-- Format OP: the select code and the operands of 30_encoding.md R77. -/
def decodeOp (sel : Nat) (operands : List Operand) : Except DecodeError Instr :=
  if sel = opselReset then
    match operands with
    | [] => .ok .reset
    | _ => .error .operandForm
  else if sel = opselCrc16 then
    match operands with
    | [.seq bytes, .num start, .num stop] => .ok (.crc16 bytes start stop)
    | _ => .error .operandForm
  else if sel = opselEncode then
    match operands with
    | [.seq p, .byte c, .seq ps] => .ok (.encode .caller p c ps)
    | [.toTransport r, .seq p, .byte c, .seq ps] => .ok (.encode (.transport r) p c ps)
    | _ => .error .operandForm
  else if sel = opselDecode then
    match operands with
    | [.seq bytes] => .ok (.decode bytes)
    | _ => .error .operandForm
  else if sel = opselConsume then
    match operands with
    | [.num now, .seq chunk] => .ok (.consume .caller now chunk)
    | [.toDecoder, .num now, .seq chunk] => .ok (.consume .decoder now chunk)
    | _ => .error .operandForm
  else if sel < 16 then
    match operands with
    | [] => .ok (.opselReserved (BitVec.ofNat 4 sel))
    | _ => .error .operandForm
  else .error .selectorSize

/-- A frame word and its operands: with none the word is the received frame and must match the row's decode mask; with
a prefix and parameters the word is the row's header and must match its mask (30_encoding.md R70). -/
def decodeFrameUse (mask pattern decodeMask decodePattern : List Byte) (word : List Byte) (operands : List Operand) :
    Except DecodeError FrameUse :=
  match operands with
  | [] => if maskMatch decodeMask decodePattern word then .ok (.read word) else .error .patternMismatch
  | [.seq p, .seq ps] =>
    if word.length = mask.length ∧ maskMatch mask pattern word then .ok (.build .caller p ps)
    else .error .patternMismatch
  | [.toTransport r, .seq p, .seq ps] =>
    if word.length = mask.length ∧ maskMatch mask pattern word then .ok (.build (.transport r) p ps)
    else .error .patternMismatch
  | _ => .error .operandForm

/-- The row of a FRAME0 word by its command byte (30_encoding.md R69, R70; 41_frame_codec.md R122 to R126). -/
def frame0Row (cc : Byte) (use : FrameUse) : Instr :=
  if cc = cmdTagFeedback then .tagFeedback use
  else if cc = cmdReadTag then .readTag use
  else if cc = cmdReadBlock then .readBlock use
  else if cc = cmdWriteBlock then .writeBlock use
  else .frameAny cc use

/-- Format FRAME0: the command stands where layout 0 has it (30_encoding.md R61). -/
def decodeFrame0 (word : List Byte) (operands : List Operand) : Except DecodeError Instr :=
  match byteAt word Layout.layout0.commandAt with
  | none => .error .wordSize
  | some cc =>
    match decodeFrameUse frame0Mask (frame0Match cc) frame0DecodeMask (frame0DecodeMatch cc) word operands with
    | .ok use => .ok (frame0Row cc use)
    | .error e => .error e

/-- Format FRAME1: the command stands where layout 1 has it (30_encoding.md R62). -/
def decodeFrame1 (word : List Byte) (operands : List Operand) : Except DecodeError Instr :=
  match byteAt word Layout.layout1.commandAt with
  | none => .error .wordSize
  | some cc =>
    match decodeFrameUse frame1Mask (frame1Match cc) frame1DecodeMask (frame1DecodeMatch cc) word operands with
    | .ok use => .ok (.frameLayout1 cc use)
    | .error e => .error e

/-- Format FRAME_RX: marker and length byte, then the rest of the frame; the operand is the time of arrival. -/
def decodeFrameRx (word : List Byte) (operands : List Operand) : Except DecodeError Instr :=
  match operands with
  | [.num now] => if maskMatch rxMask rxMatch word then .ok (.rxFrame now word) else .error .patternMismatch
  | _ => .error .operandForm

/-- The decoder: total, every request an operation or a named error. -/
def decodeRequest (r : Request) : Except DecodeError Instr :=
  match r.format with
  | .op =>
    match r.word with
    | [b] => decodeOp b.toNat r.operands
    | _ => .error .wordSize
  | .byte =>
    match r.word, r.operands with
    | [b], [] => .ok (.push b)
    | [_], _ => .error .operandForm
    | _, _ => .error .wordSize
  | .frame0 => decodeFrame0 r.word r.operands
  | .frame1 => decodeFrame1 r.word r.operands
  | .frameRx => decodeFrameRx r.word r.operands

/-- The operands that say where a built frame goes. -/
def TxDest.operands : TxDest → List Operand
  | .caller => []
  | .transport r => [.toTransport r]

/-- The operands that say where emitted frames go. -/
def RxDest.operands : RxDest → List Operand
  | .caller => []
  | .decoder => [.toDecoder]

/-- A request of format OP with select code `sel`. -/
def opRequest (sel : Nat) (operands : List Operand) : Request := ⟨.op, [BitVec.ofNat 8 sel], operands⟩

/-- The request of a frame row: the received bytes, or the row's match word with the prefix and the parameters. -/
def frameRequest (format : Format) (pattern : List Byte) : FrameUse → Request
  | .read bytes => ⟨format, bytes, []⟩
  | .build dest p ps => ⟨format, pattern, dest.operands ++ [.seq p, .seq ps]⟩

/-- The encoder, from the same tables. -/
def encodeInstr : Instr → Request
  | .reset => opRequest opselReset []
  | .crc16 bytes start stop => opRequest opselCrc16 [.seq bytes, .num start, .num stop]
  | .encode dest p c ps => opRequest opselEncode (dest.operands ++ [.seq p, .byte c, .seq ps])
  | .decode bytes => opRequest opselDecode [.seq bytes]
  | .consume dest now chunk => opRequest opselConsume (dest.operands ++ [.num now, .seq chunk])
  | .push b => ⟨.byte, [b], []⟩
  | .opselReserved sel => opRequest sel.toNat []
  | .tagFeedback use => frameRequest .frame0 (frame0Match cmdTagFeedback) use
  | .readTag use => frameRequest .frame0 (frame0Match cmdReadTag) use
  | .readBlock use => frameRequest .frame0 (frame0Match cmdReadBlock) use
  | .writeBlock use => frameRequest .frame0 (frame0Match cmdWriteBlock) use
  | .frameAny cc use => frameRequest .frame0 (frame0Match cc) use
  | .frameLayout1 cc use => frameRequest .frame1 (frame1Match cc) use
  | .rxFrame now frame => ⟨.frameRx, frame, [.num now]⟩

/-- The low `8 * n` bits of a number as `n` bytes, the most significant byte first (30_encoding.md R70, "byte 0 in the
most significant position"). -/
def bytesOfNumber : Nat → Nat → List Byte
  | 0, _ => []
  | n + 1, w => BitVec.ofNat 8 (w >>> (8 * n)) :: bytesOfNumber n w

/-- A frame header followed by zeros up to the size its length byte declares, `L + 3` bytes (30_encoding.md R64). -/
def padFrame (word : List Byte) : List Byte :=
  match byteAt word 2 with
  | some l => word ++ List.replicate (countedAt + l.toNat - word.length) 0x00#8
  | none => word

/-- Operand values of zero for a select code: empty sequences, zero bytes, zero numbers. -/
def zeroOperands (sel : Nat) : List Operand :=
  if sel = opselCrc16 then [.seq [], .num 0, .num 0]
  else if sel = opselEncode then [.seq [], .byte 0x00#8, .seq []]
  else if sel = opselDecode then [.seq []]
  else if sel = opselConsume then [.num 0, .seq []]
  else []

/-- The request that a table word stands for, the bits numbered as spec/opcode_table.json numbers them: OP rows have
their four-bit code in one byte, PUSH its byte, RX_FRAME 24 bits, FRAME0 rows 72, FRAME_LAYOUT1 80, with frame byte 0
the most significant. One byte below 16 is a select code and one byte from 16 up a PUSH byte (log 6). -/
def tableRequest (nbits w : Nat) : Request :=
  if nbits = 24 then ⟨.frameRx, padFrame (bytesOfNumber 3 w), [.num 0]⟩
  else if nbits = 72 then ⟨.frame0, padFrame (bytesOfNumber 9 w), []⟩
  else if nbits = 80 then ⟨.frame1, padFrame (bytesOfNumber 10 w), []⟩
  else if nbits ≤ 8 ∧ w < 16 then opRequest w (zeroOperands w)
  else if nbits ≤ 8 ∧ w < 256 then ⟨.byte, [BitVec.ofNat 8 w], []⟩
  else ⟨.op, [], []⟩

/-- The operation the decoder reads from a table word. -/
def decodeTableWord (nbits w : Nat) : Option Instr :=
  match decodeRequest (tableRequest nbits w) with
  | .ok i => some i
  | .error _ => none

end Sys2Proof
end

