-- ==== Sys2Proof/Machine/State.lean ====
section
/-! DEFINITION. The state of the block (10_state.md R20), the configuration it is instantiated with (R27), the
environment's requests and the results handed back (70_reset_and_hazards.md R205), the error results
(60_exceptions.md R170), the discard events (R175), and the state after reset (R32). Everything is plain data. -/

namespace Sys2Proof.Machine

/-- The reassembly buffer's contents: address and byte pairs, addresses strictly rising (20_memory.md R40). -/
abbrev Memory := List Host.Cell

/-- The record DECODE returns (41_frame_codec.md R118). `sign` is present in layout 1 only. The two-byte fields are
pairs (20_memory.md R43). -/
structure Frame where
  head : Byte × Byte
  length : Byte
  sourceAddr : Byte × Byte
  targetAddr : Byte × Byte
  sign : Option Byte
  command : Byte
  reserved : Byte
  parameters : List Byte
  checksum : Half
deriving DecidableEq, Repr

/-- Which check of DECODE failed (41_frame_codec.md R111). -/
inductive MalformedKind where
  | tooShort
  | truncated
  | underLength
deriving DecidableEq, Repr

/-- The error results of the block with the information they record (60_exceptions.md R170). -/
inductive BlockError where
  /-- From DECODE; records which check failed and the buffer (R171). -/
  | malformedFrame (kind : MalformedKind) (buffer : List Byte)
  /-- From ENCODE; records the parameter count (41_frame_codec.md R102; log 12). -/
  | parameterOverflow (count : Nat)
  /-- From DECODE with VERIFY_CRC = 1 (41_frame_codec.md R119). -/
  | checksumMismatch (received computed : Half)
deriving DecidableEq, Repr

/-- The discard events (60_exceptions.md R175). -/
inductive Event where
  | dropGarbage (b : Byte)
  | dropHead2 (b : Byte)
  | dropOverflow (k : Nat)
  | dropStale (k : Nat)
  | decodeDropped (frame : List Byte) (reason : BlockError)
deriving DecidableEq, Repr

/-- The result of one operation (30_encoding.md R77, 60_exceptions.md R170). -/
inductive Result where
  /-- RESET: no result. -/
  | done
  /-- CRC16. -/
  | crc (value : Half)
  /-- ENCODE. -/
  | encoded (bytes : List Byte)
  /-- TXPATH: what was handed to `send`, and the outcome it returned (43_paths.md R160, R161). -/
  | transmitted (reportId : Int) (payload : List Byte) (outcome : Nat)
  /-- DECODE. -/
  | decoded (frame : Frame)
  /-- CONSUME: emitted frames and discard events, each in order. -/
  | consumed (frames : List (List Byte)) (events : List Event)
  /-- RXPATH: decoded frames and events, each in order (43_paths.md R162). -/
  | received (frames : List Frame) (events : List Event)
  /-- PUSH: at most one frame and at most one event (42_reassembler.md R132). -/
  | pushed (frame : Option (List Byte)) (event : Option Event)
  /-- The operation ended with an error result and no other. -/
  | error (e : BlockError)
deriving DecidableEq, Repr

/-- The stuck states of the checked accesses (20_memory.md R56, 10_state.md R32). Each is safe: the model stops where
the hardware goes on, and none can be reached from a state that keeps the invariant of 10_state.md R23. -/
inductive Fault where
  /-- Raised by an append (PUSH, CONSUME, RXPATH) at an address outside 0 to BUF_CAP. Safe. -/
  | bufferAddress (address : Nat)
  /-- Raised by a read (PUSH, CONSUME, RXPATH) of a byte at or above `len`, which no rule reads. Safe. -/
  | staleByte (address : Nat)
  /-- Raised by a read (PUSH, CONSUME, RXPATH) of a byte that nothing has written. Safe. -/
  | unwrittenByte (address : Nat)
  /-- Raised by DECODE (and RXPATH) on a field position outside its operand, which the checks of 41_frame_codec.md
  R111 exclude. Safe. -/
  | operandIndex
deriving DecidableEq, Repr

/-- What the block refuses. Each is safe: there is no next state, so nothing can be proved of one. -/
inductive Refusal where
  /-- An instruction that has no meaning yet; raised by no arm of `exec`. Safe. -/
  | notModelled (mnemonic : String)
  /-- Raised by OPSEL_RESERVED: a reserved select code, refused with no state change (30_encoding.md R77). Safe. -/
  | reservedOpsel (sel : BitVec 4)
  /-- Raised by CRC16 on a non-empty range that leaves the bytes (40_crc.md R96, 60_exceptions.md R174). Safe. -/
  | crcRange (start stop size : Nat)
  /-- Raised by PUSH outside a CONSUME: it is not callable from outside (30_encoding.md R77, 42_reassembler.md R132).
  Safe. -/
  | pushOutsideConsume
  /-- Raised by the step on an operation that would overlap an unfinished CONSUME (93_implementation_defined.md U18).
  Safe. -/
  | overlap
  /-- Raised by the step on a request that is no operation of the block. Safe. -/
  | undecodable (e : DecodeError)
deriving DecidableEq, Repr

/-- The state. `buf`, `len` and `lastActivity` are the block's architectural state, complete (10_state.md R20); `cfg` is
the configuration, which no operation changes (R27, log 1). The rest are the model's own: `stamped`, whether
`lastActivity` has been written since the last reset (R23 (e), R29; log 3), and `consuming`, whether the block is
mid-way through a CONSUME (R23 (e), 42_reassembler.md R132; log 16); `requests`, the operations the environment has
presented (log 5); `results`, the results so far (log 4); `draws`, the free-value counter (log 7). -/
structure State where
  cfg : Config
  buf : Memory
  len : Nat
  lastActivity : Nat
  stamped : Bool
  consuming : Bool
  requests : List Request
  results : List Result
  draws : Nat
deriving DecidableEq, Repr

/-- The state after RESET at instantiation (10_state.md R32, 70_reset_and_hazards.md R200, R201): `len` = 0 and the
parameters at this hardware's values. `buf` lists nothing (log 2) and `lastActivity` is 0 by DESIGN CHOICE (log 3), not
written yet; no CONSUME is under way; the model's other fields are empty and 0 (log 4, log 5, log 7). -/
def State.reset : State where
  cfg := hardwareConfig
  buf := []
  len := 0
  lastActivity := 0
  stamped := false
  consuming := false
  requests := []
  results := []
  draws := 0

end Sys2Proof.Machine
end

