-- ==== Sys2Proof/Machine/Ops.lean ====
section
/-! DEFINITION. The named operations over the buffer and the state, and the one shared operation that ends an operation
with an error (60_exceptions.md R180). -/

namespace Sys2Proof.Machine

/-! ### The buffer memory (20_memory.md R40, R46) -/

/-- What an address that is not listed reads as: no value (10_state.md R32; log 2). -/
def Memory.unlisted : Option Byte := none

/-- Read of one byte. -/
def Memory.read : Memory → Nat → Option Byte
  | [], _ => Memory.unlisted
  | (k, v) :: rest, a => if k = a then some v else Memory.read rest a

/-- Write of one byte, keeping the addresses strictly rising. Since an unlisted address has no value, no write
removes an entry. -/
def Memory.write : Memory → Nat → Byte → Memory
  | [], a, v => [(a, v)]
  | (k, u) :: rest, a, v =>
    if a < k then (a, v) :: (k, u) :: rest
    else if a = k then (a, v) :: rest
    else (k, u) :: Memory.write rest a v

/-- Whether an address lies above a lower bound, if there is one. -/
def Memory.above : Option Nat → Nat → Bool
  | none, _ => true
  | some l, a => decide (l < a)

/-- Whether the listed addresses rise strictly and all lie above `lower`. -/
def Memory.rising : Option Nat → Memory → Bool
  | _, [] => true
  | lower, (k, _) :: rest => Memory.above lower k && Memory.rising (some k) rest

/-- The canonical form: addresses strictly rising, and no entry equal to what an unlisted address reads as. -/
def Memory.wf (m : Memory) : Bool := Memory.rising none m && m.all fun c => some c.2 != Memory.unlisted

/-! ### Field updates -/

/-- `len <- n`, the block's only control transfer (10_state.md R25). -/
def State.setLen (s : State) (n : Nat) : State := { s with len := n }

/-- `buf[a] <- v`. -/
def State.setByte (s : State) (a : Nat) (v : Byte) : State := { s with buf := Memory.write s.buf a v }

/-- `last_activity <- t`, which has then been written (10_state.md R29; log 3). -/
def State.setLastActivity (s : State) (t : Nat) : State := { s with lastActivity := t, stamped := true }

/-- The value of `last_activity` is from now on one that nothing has written since reset (10_state.md R32; log 3). -/
def State.forgetActivity (s : State) : State := { s with stamped := false }

/-- A CONSUME begins or ends (log 16). -/
def State.setConsuming (s : State) (c : Bool) : State := { s with consuming := c }

/-- One free value has been used (log 7). -/
def State.advanceDraws (s : State) : State := { s with draws := s.draws + 1 }

/-- Hands a result to the environment (70_reset_and_hazards.md R205). -/
def State.record (s : State) (r : Result) : State := { s with results := s.results ++ [r] }

/-- The environment's next request is taken up. -/
def State.setRequests (s : State) (rs : List Request) : State := { s with requests := rs }

/-! ### Ends of an operation (60_exceptions.md R170, R180) -/

/-- An operation's end with its normal result. -/
def finish (r : Result) (s : State) : Host.Outcome State Fault Refusal := .next (s.record r)

/-- `raise <Kind>(info)`: the error is the operation's result, nothing is saved, no mode changes, no handler runs,
control goes back to the caller and the state of the block is what it was (60_exceptions.md R180). There is nothing to
return from (R181): the next operation runs as if nothing had happened. -/
def raise (e : BlockError) (s : State) : Host.Outcome State Fault Refusal := .next (s.record (.error e))

/-! ### The checked accesses of the buffer (20_memory.md R56) -/

/-- `buf[i]`, for an address below `len` that has been written (10_state.md R21, R32). -/
def readByte (s : State) (i : Nat) : Except Fault Byte :=
  if i < s.len then
    match Memory.read s.buf i with
    | some b => .ok b
    | none => .error (.unwrittenByte i)
  else .error (.staleByte i)

/-- The bytes `buf[i : i + n]`. -/
def readBytes (s : State) : Nat → Nat → Except Fault (List Byte)
  | _, 0 => .ok []
  | i, n + 1 =>
    match readByte s i with
    | .error f => .error f
    | .ok b =>
      match readBytes s (i + 1) n with
      | .error f => .error f
      | .ok bs => .ok (b :: bs)

/-- `buf[0:len]`, the whole buffer (42_reassembler.md R138). -/
def bufferContents (s : State) : Except Fault (List Byte) := readBytes s 0 s.len

/-- `buf[len] <- b; len <- len + 1` (42_reassembler.md R136). -/
def State.appended (s : State) (b : Byte) : State := (s.setByte s.len b).setLen (s.len + 1)

/-- The append, for an address the buffer has. -/
def appendByte (b : Byte) (s : State) : Except Fault State :=
  if s.len ≤ s.cfg.bufCap then .ok (s.appended b)
  else .error (.bufferAddress s.len)

end Sys2Proof.Machine
end

