-- ==== Sys2Proof/Machine/Crc.lean ====
section
/-! DEFINITION. The CRC part: the operation CRC16 (40_crc.md). The loop is the standard reflected bitwise CRC
(R92, general knowledge, log 11). -/

namespace Sys2Proof.Machine

/-- One bit step: bit 0 is tested before the logical right shift (40_crc.md R92, R93). -/
def crcStep (c : Half) : Half := if c.getLsbD 0 then (c >>> 1) ^^^ crcPoly else c >>> 1

/-- `n` bit steps. -/
def crcSteps : Nat → Half → Half
  | 0, c => c
  | n + 1, c => crcSteps n (crcStep c)

/-- `crc_byte(crc, b) = step^8(crc ^ zext_16(b))` (40_crc.md R93). -/
def crcByte (c : Half) (b : Byte) : Half := crcSteps 8 (c ^^^ zext16 b)

/-- The working register after the bytes, from CRC_INIT (40_crc.md R93). -/
def crcRegister (bytes : List Byte) : Half := bytes.foldl crcByte crcInit

/-- The checksum of a byte sequence: the complement of the working register (40_crc.md R92). -/
def crcOf (bytes : List Byte) : Half := crcRegister bytes ^^^ crcXorOut

/-- `CRC16(bytes, start, end)` on a range inside the bytes (40_crc.md R92, R94). -/
def crc16 (bytes : List Byte) (start stop : Nat) : Half := crcOf (slice bytes start stop)

/-- Whether CRC16 has a meaning: an empty range, or a range that lies in the bytes (40_crc.md R96). -/
def crcRangeOk (bytes : List Byte) (start stop : Nat) : Bool := decide (stop ≤ start) || decide (stop ≤ bytes.length)

/-- CRC16 (40_crc.md R90). A range that leaves the bytes is refused (R96, 60_exceptions.md R174). -/
def execCrc16 (bytes : List Byte) (start stop : Nat) (s : State) : Host.Outcome State Fault Refusal :=
  if crcRangeOk bytes start stop then finish (.crc (crc16 bytes start stop)) s
  else .refused (.crcRange start stop bytes.length)

end Sys2Proof.Machine
end

