-- ==== Sys2Proof/Machine/Codec.lean ====
section
/-! DEFINITION. The frame codec: ENC and DEC (41_frame_codec.md), the transmit path over ENC (43_paths.md R160, R161),
and the frame rows of spec/opcode_table.json (R122 to R126, R106). -/

namespace Sys2Proof.Machine

/-! ### ENC -/

/-- The sign byte of a frame ENC builds: SIGN_VALUE in layout 1, nothing in layout 0 (41_frame_codec.md R102, R106). -/
def signField (cfg : Config) : List Byte :=
  match cfg.layout with
  | .layout0 => []
  | .layout1 => [cfg.signValue]

/-- The frame without its checksum (41_frame_codec.md R102): head, length, addresses, sign, command, reserved,
parameters. -/
def frameBody (cfg : Config) (command : Byte) (parameters : List Byte) : List Byte :=
  [head0, head1, BitVec.ofNat 8 (cfg.layout.overhead + parameters.length), srcAddr.1, srcAddr.2, tgtAddr.1, tgtAddr.2]
    ++ signField cfg ++ [command, reservedByte] ++ parameters

/-- The frame: the checksum covers everything built so far but the two head bytes and is appended low byte first
(41_frame_codec.md R102, 30_encoding.md R65). -/
def buildFrame (cfg : Config) (command : Byte) (parameters : List Byte) : List Byte :=
  let f := frameBody cfg command parameters
  f ++ wireBytes (crc16 f 2 f.length)

/-- ENCODE (41_frame_codec.md R101, R102): the checked precondition, then the prefix and the frame. -/
def encodeFrame (cfg : Config) (sendPrefix : List Byte) (command : Byte) (parameters : List Byte) :
    Except BlockError (List Byte) :=
  if cfg.layout.nMax < parameters.length ∨ prefixTooLong cfg sendPrefix.length then
    .error (.parameterOverflow parameters.length)
  else .ok (sendPrefix ++ buildFrame cfg command parameters)

/-- The transport's `send`, called once with the payload; TXPATH returns its outcome unchanged (43_paths.md R160,
R161). The outcome is a free value (log 8). -/
def sendToTransport (reportId : Int) (payload : List Byte) (s : State) : Host.Outcome State Fault Refusal :=
  finish (.transmitted reportId payload (Config.freeSendOutcome s.draws)) s.advanceDraws

/-- ENCODE under a configuration, its result going to the caller or to the transport; an error ends it before the
transport is called (43_paths.md R160). -/
def runEncode (cfg : Config) (dest : TxDest) (sendPrefix : List Byte) (command : Byte) (parameters : List Byte)
    (s : State) : Host.Outcome State Fault Refusal :=
  match encodeFrame cfg sendPrefix command parameters with
  | .error e => raise e s
  | .ok bytes =>
    match dest with
    | .caller => finish (.encoded bytes) s
    | .transport reportId => sendToTransport reportId bytes s

/-! ### DEC -/

/-- The first check of DECODE that fails, in the order of 41_frame_codec.md R111: TooShort, Truncated, UnderLength. A
buffer too short to have a length byte is TooShort. -/
def checkFrame (cfg : Config) (bytes : List Byte) : Option MalformedKind :=
  if bytes.length < decMin then some .tooShort
  else
    match byteAt bytes 2 with
    | none => some .tooShort
    | some l =>
      if bytes.length < countedAt + l.toNat then some .truncated
      else if l.toNat < cfg.layout.overhead then some .underLength
      else none

/-- The sign byte DEC reads: offset 7 in layout 1, absent in layout 0; `none` when the position does not exist. -/
def readSign (cfg : Config) (bytes : List Byte) : Option (Option Byte) :=
  match cfg.layout with
  | .layout0 => some none
  | .layout1 =>
    match byteAt bytes 7 with
    | some b => some (some b)
    | none => none

/-- What DECODE reads, by position (41_frame_codec.md R112); `none` when a position lies outside the bytes, which the
checks exclude. -/
def readFrame (cfg : Config) (bytes : List Byte) : Option Frame :=
  match byteAt bytes 0, byteAt bytes 1, byteAt bytes 2, byteAt bytes 3, byteAt bytes 4, byteAt bytes 5, byteAt bytes 6,
    readSign cfg bytes, byteAt bytes cfg.layout.commandAt, byteAt bytes cfg.layout.reservedAt with
  | some h0, some h1, some l, some s0, some s1, some t0, some t1, some sg, some c, some r =>
    match byteAt bytes (l.toNat + 1), byteAt bytes (l.toNat + 2) with
    | some lo, some hi =>
      some
        { head := (h0, h1), length := l, sourceAddr := (s0, s1), targetAddr := (t0, t1), sign := sg, command := c,
          reserved := r, parameters := slice bytes cfg.layout.parametersAt (l.toNat + 1),
          checksum := halfOfLowHigh lo hi }
    | _, _ => none
  | _, _, _, _, _, _, _, _, _, _ => none

/-- The option VERIFY_CRC (41_frame_codec.md R119): the computed checksum of the checked region against the received
one. With VERIFY_CRC = 0 nothing is compared (R115). -/
def verifyFrame (cfg : Config) (bytes : List Byte) (f : Frame) : Except BlockError Frame :=
  if cfg.verifyCrc ∧ crc16 bytes 2 (f.length.toNat + 1) ≠ f.checksum then
    .error (.checksumMismatch f.checksum (crc16 bytes 2 (f.length.toNat + 1)))
  else .ok f

/-- DECODE (41_frame_codec.md R110 to R119): the Frame, or the block's error; the outer error is the model's stuck
state of a read outside the operand. -/
def decodeFrame (cfg : Config) (bytes : List Byte) : Except Fault (Except BlockError Frame) :=
  match checkFrame cfg bytes with
  | some kind => .ok (.error (.malformedFrame kind bytes))
  | none =>
    match readFrame cfg bytes with
    | none => .error .operandIndex
    | some f => .ok (verifyFrame cfg bytes f)

/-- DECODE under a configuration, its result to the caller. -/
def runDecode (cfg : Config) (bytes : List Byte) (s : State) : Host.Outcome State Fault Refusal :=
  match decodeFrame cfg bytes with
  | .error f => .fault f
  | .ok (.error e) => raise e s
  | .ok (.ok f) => finish (.decoded f) s

/-! ### The frame rows (log 13) -/

/-- What the block does with a frame of a command: ENC writes it with the command as data (41_frame_codec.md R102), or
DEC reads it by position (R112). -/
def runFrameUse (cfg : Config) (command : Byte) (use : FrameUse) (s : State) : Host.Outcome State Fault Refusal :=
  match use with
  | .build dest p ps => runEncode cfg dest p command ps s
  | .read bytes => runDecode cfg bytes s

/-- ENCODE (41_frame_codec.md R100), and TXPATH (43_paths.md R160). -/
def execEncode (dest : TxDest) (sendPrefix : List Byte) (command : Byte) (parameters : List Byte) (s : State) :
    Host.Outcome State Fault Refusal := runEncode s.cfg dest sendPrefix command parameters s

/-- DECODE (41_frame_codec.md R110). -/
def execDecode (bytes : List Byte) (s : State) : Host.Outcome State Fault Refusal := runDecode s.cfg bytes s

/-- TAG_FEEDBACK (41_frame_codec.md R122). -/
def execTagFeedback (use : FrameUse) (s : State) : Host.Outcome State Fault Refusal :=
  runFrameUse s.cfg cmdTagFeedback use s

/-- READ_TAG (41_frame_codec.md R123). -/
def execReadTag (use : FrameUse) (s : State) : Host.Outcome State Fault Refusal := runFrameUse s.cfg cmdReadTag use s

/-- READ_BLOCK (41_frame_codec.md R124). -/
def execReadBlock (use : FrameUse) (s : State) : Host.Outcome State Fault Refusal :=
  runFrameUse s.cfg cmdReadBlock use s

/-- WRITE_BLOCK (41_frame_codec.md R125). -/
def execWriteBlock (use : FrameUse) (s : State) : Host.Outcome State Fault Refusal :=
  runFrameUse s.cfg cmdWriteBlock use s

/-- FRAME_ANY (41_frame_codec.md R126): every command byte is written and read as data. -/
def execFrameAny (command : Byte) (use : FrameUse) (s : State) : Host.Outcome State Fault Refusal :=
  runFrameUse s.cfg command use s

/-- FRAME_LAYOUT1 (41_frame_codec.md R106): the codec in layout 1, whatever layout the instance has (log 13). -/
def execFrameLayout1 (command : Byte) (use : FrameUse) (s : State) : Host.Outcome State Fault Refusal :=
  runFrameUse s.cfg.inLayout1 command use s

end Sys2Proof.Machine
end

