-- ==== Sys2Proof/Machine/Flags.lean ====
section
/-! DEFINITION. The block has no condition codes or status flags (10_state.md R26). What plays their part is derived:
the state of the byte machine, a function of `len` (R24), the conditions PUSH and the staleness check test
(42_reassembler.md R142), and the numbers the spec assigns to errors and events (60_exceptions.md R177), on which no
rule depends. -/

namespace Sys2Proof.Machine

/-- The four states of the reassembler (10_state.md R24). -/
inductive Fsm where
  | empty
  | gotHead1
  | gotHead2
  | accumulating
deriving DecidableEq, Repr

/-- The state of the byte machine, a function of `len` alone and not stored (10_state.md R24). -/
def State.fsm (s : State) : Fsm :=
  match s.len with
  | 0 => .empty
  | 1 => .gotHead1
  | 2 => .gotHead2
  | _ => .accumulating

/-- `expectedTotal`: the size a frame with this length byte has, a natural number without 8-bit wrap-around
(42_reassembler.md R137, 30_encoding.md R64). -/
def expectedTotal (lengthByte : Byte) : Nat := lengthByte.toNat + countedAt

/-- Whether the outcome of the staleness check is fixed: the clock does not stand before `last_activity`
(42_reassembler.md R152). -/
def clockInOrder (now : Nat) (s : State) : Bool := decide (s.lastActivity ≤ clockReading s.cfg now)

/-- "Exceeds the staleness window", strictly (42_reassembler.md R131). When the environment broke its duty and the
clock stands before `last_activity`, a free value (R152; log 7). -/
def isStale (now : Nat) (s : State) : Bool :=
  if clockInOrder now s then decide (s.cfg.staleWindow < clockReading s.cfg now - s.lastActivity)
  else Config.freeStale s.draws

/-- The spec's number for an error (60_exceptions.md R177); 0 is OK. -/
def BlockError.code : BlockError → Nat
  | .malformedFrame .tooShort _ => 1
  | .malformedFrame .truncated _ => 2
  | .malformedFrame .underLength _ => 3
  | .parameterOverflow _ => 4
  | .checksumMismatch _ _ => 5

/-- The spec's number for an operation's result: 0 OK, or the error's (60_exceptions.md R177). -/
def Result.code : Result → Nat
  | .error e => e.code
  | _ => 0

/-- The spec's number for an event (60_exceptions.md R177). -/
def Event.code : Event → Nat
  | .dropGarbage _ => 16
  | .dropHead2 _ => 17
  | .dropOverflow _ => 18
  | .dropStale _ => 19
  | .decodeDropped _ _ => 20

end Sys2Proof.Machine
end

