-- ==== Sys2Proof/Machine/Reassembler.lean ====
section
/-! DEFINITION. The stream reassembler: PUSH and CONSUME (42_reassembler.md), and the receive path over CONSUME and
DECODE (43_paths.md R162, R163). -/

namespace Sys2Proof.Machine

/-- What one PUSH leaves: the state, at most one emitted frame, at most one discard event (42_reassembler.md R132). -/
structure PushResult where
  state : State
  frame : Option (List Byte)
  event : Option Event
deriving DecidableEq, Repr

/-- What a run of PUSHes leaves: the state, the emitted frames and the discard events, each in order. -/
structure RsmResult where
  state : State
  frames : List (List Byte)
  events : List Event
deriving DecidableEq, Repr

/-- Transition 5, the cap (42_reassembler.md R139). -/
def capTest (s : State) : PushResult :=
  if s.cfg.bufCap < s.len then ⟨s.setLen 0, none, some (.dropOverflow s.len)⟩ else ⟨s, none, none⟩

/-- Emission (42_reassembler.md R138): the whole buffer is the frame, then `len <- 0`. -/
def emitFrame (s : State) : Except Fault PushResult :=
  match bufferContents s with
  | .error f => .error f
  | .ok frame => .ok ⟨s.setLen 0, some frame, none⟩

/-- Transition 4, the completion test, made only above CHECK_FLOOR and before the cap test
(42_reassembler.md R137, R140). -/
def completionTest (s : State) : Except Fault PushResult :=
  if checkFloor < s.len then
    match readByte s 2 with
    | .error f => .error f
    | .ok l => if s.len = expectedTotal l then emitFrame s else .ok (capTest s)
  else .ok (capTest s)

/-- PUSH in full (42_reassembler.md R141): transitions 1 and 2 (R134, R135), then the append (R136) and its tests. -/
def pushByte (b : Byte) (s : State) : Except Fault PushResult :=
  if s.len = 0 ∧ b ≠ head0 then .ok ⟨s, none, some (.dropGarbage b)⟩
  else if s.len = 1 ∧ b ≠ head1 then .ok ⟨s.setLen 0, none, some (.dropHead2 b)⟩
  else
    match appendByte b s with
    | .error f => .error f
    | .ok s' => completionTest s'

/-- The PUSHes of a chunk, first byte first (42_reassembler.md R130, 20_memory.md R51). -/
def pushBytes : List Byte → State → Except Fault RsmResult
  | [], s => .ok ⟨s, [], []⟩
  | b :: bs, s =>
    match pushByte b s with
    | .error f => .error f
    | .ok p =>
      match pushBytes bs p.state with
      | .error f => .error f
      | .ok r => .ok ⟨r.state, p.frame.toList ++ r.frames, p.event.toList ++ r.events⟩

/-- The staleness check, once per CONSUME and before any byte; with `len` = 0 nothing is read
(42_reassembler.md R131). A check whose outcome is free uses one draw (R152; log 7). -/
def stalenessCheck (now : Nat) (s : State) : State × List Event :=
  if s.len = 0 then (s, [])
  else
    let s' := if clockInOrder now s then s else s.advanceDraws
    if isStale now s then (s'.setLen 0, [.dropStale s.len]) else (s', [])

/-- The timestamp update: a non-empty chunk is activity, whatever its bytes were (42_reassembler.md R133). -/
def stampActivity (now : Nat) (chunk : List Byte) (s : State) : State :=
  if chunk.isEmpty then s else s.setLastActivity (clockReading s.cfg now)

/-- CONSUME (42_reassembler.md R130): the staleness check, the PUSHes, the timestamp. From its first PUSH to its end the
state says that it is under way (10_state.md R23 (e); log 16). -/
def consumeChunk (now : Nat) (chunk : List Byte) (s : State) : Except Fault RsmResult :=
  let checked := stalenessCheck now s
  match pushBytes chunk (checked.1.setConsuming true) with
  | .error f => .error f
  | .ok r => .ok ⟨(stampActivity now chunk r.state).setConsuming false, r.frames, checked.2 ++ r.events⟩

/-- DECODE of each emitted frame in order; one that raises is dropped with an event and the rest go on
(43_paths.md R162, R163). -/
def decodeEmitted (cfg : Config) : List (List Byte) → Except Fault (List Frame × List Event)
  | [] => .ok ([], [])
  | f :: fs =>
    match decodeFrame cfg f with
    | .error e => .error e
    | .ok r =>
      match decodeEmitted cfg fs with
      | .error e => .error e
      | .ok (frames, events) =>
        match r with
        | .ok frame => .ok (frame :: frames, events)
        | .error e => .ok (frames, .decodeDropped f e :: events)

/-- The receive path (43_paths.md R162): CONSUME, then DECODE of each emitted frame. -/
def receiveChunk (now : Nat) (chunk : List Byte) (s : State) : Host.Outcome State Fault Refusal :=
  match consumeChunk now chunk s with
  | .error f => .fault f
  | .ok r =>
    match decodeEmitted s.cfg r.frames with
    | .error f => .fault f
    | .ok (frames, events) => finish (.received frames (r.events ++ events)) r.state

/-- CONSUME (42_reassembler.md R130), and RXPATH (43_paths.md R162). -/
def execConsume (dest : RxDest) (now : Nat) (chunk : List Byte) (s : State) : Host.Outcome State Fault Refusal :=
  match dest with
  | .caller =>
    match consumeChunk now chunk s with
    | .error f => .fault f
    | .ok r => finish (.consumed r.frames r.events) r.state
  | .decoder => receiveChunk now chunk s

/-- PUSH (42_reassembler.md R132), a step inside CONSUME: outside one it is refused, since it is not callable from
outside (30_encoding.md R77; log 16). -/
def execPush (b : Byte) (s : State) : Host.Outcome State Fault Refusal :=
  if s.consuming then
    match pushByte b s with
    | .error f => .fault f
    | .ok p => finish (.pushed p.frame p.event) p.state
  else .refused .pushOutsideConsume

/-- RX_FRAME (42_reassembler.md R144): a frame that arrives, its bytes the chunk of one RXPATH (log 14). -/
def execRxFrame (now : Nat) (frame : List Byte) (s : State) : Host.Outcome State Fault Refusal :=
  receiveChunk now frame s

end Sys2Proof.Machine
end

