-- ==== Sys2Proof/Machine/System.lean ====
section
/-! DEFINITION. RESET, the block's only system operation (70_reset_and_hazards.md R200, R203), the reserved select codes
(30_encoding.md R77), and which operation may begin (20_memory.md R48). -/

namespace Sys2Proof.Machine

/-- RESET (70_reset_and_hazards.md R200): `len <- 0`, nothing else is written, and a partial frame is lost without an
event. `last_activity` keeps its bits and is unspecified again (10_state.md R32; log 3). -/
def execReset (s : State) : Host.Outcome State Fault Refusal := finish .done (s.setLen 0).forgetActivity

/-- OPSEL_RESERVED (30_encoding.md R77, "a model refuses them"). -/
def execOpselReserved (sel : BitVec 4) (_ : State) : Host.Outcome State Fault Refusal := .refused (.reservedOpsel sel)

/-- Whether an operation is a step of a CONSUME and no operation of its own (30_encoding.md R77). -/
def isConsumeStep : Instr → Bool
  | .push _ => true
  | .reset => false
  | .crc16 _ _ _ => false
  | .encode _ _ _ _ => false
  | .decode _ => false
  | .consume _ _ _ => false
  | .opselReserved _ => false
  | .tagFeedback _ => false
  | .readTag _ => false
  | .readBlock _ => false
  | .writeBlock _ => false
  | .frameAny _ _ => false
  | .frameLayout1 _ _ => false
  | .rxFrame _ _ => false

/-- Whether an operation would overlap an unfinished CONSUME: operations are serial (20_memory.md R48), and an overlap
is refused (93_implementation_defined.md U18; log 20). -/
def overlaps (i : Instr) (s : State) : Bool := s.consuming && !isConsumeStep i

end Sys2Proof.Machine
end

