-- ==== Sys2Proof/Machine/Dispatch.lean ====
section
/-! DEFINITION. One arm per operation, each a direct call of its meaning. -/

namespace Sys2Proof.Machine

def exec (i : Instr) (s : State) : Host.Outcome State Fault Refusal :=
  match i with
  | .reset => Sys2Proof.Machine.execReset s
  | .crc16 bytes start stop => Sys2Proof.Machine.execCrc16 bytes start stop s
  | .encode dest p c ps => Sys2Proof.Machine.execEncode dest p c ps s
  | .decode bytes => Sys2Proof.Machine.execDecode bytes s
  | .consume dest now chunk => Sys2Proof.Machine.execConsume dest now chunk s
  | .push b => Sys2Proof.Machine.execPush b s
  | .opselReserved sel => Sys2Proof.Machine.execOpselReserved sel s
  | .tagFeedback use => Sys2Proof.Machine.execTagFeedback use s
  | .readTag use => Sys2Proof.Machine.execReadTag use s
  | .readBlock use => Sys2Proof.Machine.execReadBlock use s
  | .writeBlock use => Sys2Proof.Machine.execWriteBlock use s
  | .frameAny c use => Sys2Proof.Machine.execFrameAny c use s
  | .frameLayout1 c use => Sys2Proof.Machine.execFrameLayout1 c use s
  | .rxFrame now frame => Sys2Proof.Machine.execRxFrame now frame s

end Sys2Proof.Machine
end

