-- ==== Sys2Proof/Machine/Step.lean ====
section
/-! DEFINITION. One step: the block takes up the environment's next request and performs it. The block fetches no
instructions and has no program counter (10_state.md R25, 20_memory.md R54), so what a step fetches from is the list
of requests (log 5). -/

namespace Sys2Proof.Machine

/-- One step. With no request the block is idle and holds its state (60_exceptions.md R178, R186); otherwise the first
request is taken off the list and its operation performed, or it is refused: as no operation of the block, or as one
that overlaps an unfinished CONSUME (20_memory.md R48). -/
def step (s : State) : Host.Outcome State Fault Refusal :=
  match s.requests with
  | [] => .next s
  | r :: rest =>
    match decodeRequest r with
    | .ok i => if overlaps i s then .refused .overlap else exec i (s.setRequests rest)
    | .error e => .refused (.undecodable e)

/-- Whether a table word is a step of a CONSUME. -/
def isConsumeStepWord (nbits w : Nat) : Bool :=
  match decodeTableWord nbits w with
  | some i => isConsumeStep i
  | none => false

/-- The state with the request of a table word presented first (log 5, log 6), inside a CONSUME where the word is a
step of one and outside otherwise, so that the next step runs it (log 16). -/
def State.withFetchWord (s : State) (nbits w : Nat) : State :=
  (s.setRequests (tableRequest nbits w :: s.requests)).setConsuming (isConsumeStepWord nbits w)

end Sys2Proof.Machine
end

