-- ==== Sys2Proof/Safety.lean ====
section
/-! DEFINITION. What a safe state and a safe run are, in the terms claims use: the invariant of 10_state.md R23, the
environment's duties (43_paths.md R166), and what an emitted frame satisfies (42_reassembler.md R144). -/

namespace Sys2Proof.Machine

/-- The byte `buf[i]` reads as `v`. -/
abbrev State.holds (s : State) (i : Nat) (v : Byte) : Prop := Memory.read s.buf i = some v

/-- The invariant of 10_state.md R23 (a) to (d), with what R22, R40 and R56 say of the buffer: its form is canonical,
its addresses are 0 to BUF_CAP, and every byte below `len` has been written. -/
structure State.BufferInv (s : State) : Prop where
  /-- The memory is in canonical form. -/
  bufWf : Memory.wf s.buf = true
  /-- The buffer's addresses are 0 to BUF_CAP (20_memory.md R40). -/
  bufRange : ∀ a, s.cfg.bufCap < a → Memory.read s.buf a = none
  /-- R23 (a). -/
  lenCap : s.len ≤ s.cfg.bufCap
  /-- Every byte below `len` has been written. -/
  written : ∀ i, i < s.len → ∃ v, s.holds i v
  /-- R23 (b). -/
  head0 : 1 ≤ s.len → s.holds 0 Sys2Proof.head0
  /-- R23 (c). -/
  head1 : 2 ≤ s.len → s.holds 1 Sys2Proof.head1
  /-- R23 (d). -/
  incomplete : checkFloor < s.len → ∀ v, s.holds 2 v → s.len ≠ expectedTotal v

/-- The invariant of 10_state.md R23, between operations and between any two PUSH steps inside a CONSUME. -/
structure State.Inv (s : State) : Prop extends State.BufferInv s where
  /-- R23 (e). -/
  activity : 1 ≤ s.len → s.stamped = true ∨ s.consuming = true

/-- The invariant between operations, where no CONSUME is under way. -/
structure State.Ready (s : State) : Prop extends State.Inv s where
  idle : s.consuming = false

/-- What every emitted frame satisfies (42_reassembler.md R144). -/
structure EmittedFrame (cfg : Config) (f : List Byte) : Prop where
  head0 : f[0]? = some Sys2Proof.head0
  head1 : f[1]? = some Sys2Proof.head1
  atLeast : 11 ≤ f.length
  atMost : f.length ≤ cfg.bufCap + 1
  length : ∃ l, f[2]? = some l ∧ f.length = expectedTotal l

/-- The environment's duty for a CONSUME at `now` (42_reassembler.md R152): time does not go backwards. -/
abbrev EnvironmentDuty (now : Nat) (s : State) : Prop := s.lastActivity ≤ clockReading s.cfg now

/-- No staleness discard happens at `now`: the buffer is empty or the gap is inside the window
(42_reassembler.md R131). -/
abbrev NoStaleGap (now : Nat) (s : State) : Prop :=
  s.len = 0 ∨ (EnvironmentDuty now s ∧ clockReading s.cfg now - s.lastActivity ≤ s.cfg.staleWindow)

/-- A safe end of a step: a next state, not a stuck state. A refusal is the block's own answer to a request that is no
operation of it. -/
def SafeOutcome : Host.Outcome State Fault Refusal → Bool
  | .next _ => true
  | .fault _ => false
  | .refused _ => true

end Sys2Proof.Machine
end

