-- ==== Sys2Proof/Certificates/Slice0/Obligations.lean ====
section
/-! DEFINITION. The statements. The first part writes down, in plain list and number notation and without the model's
own functions, what the rules call a checksum, a frame and a decoded record; the statements compare `exec` and `step`
with that. `results`, `requests`, `stamped` and `consuming` are the model's own fields (log 4, log 5, log 3, log 16):
where a statement says that an operation answers the state with one more result, the block's own state is exactly as
written there. -/

namespace Sys2Proof.Spec

open Sys2Proof.Machine

/-- One bit step of 40_crc.md R93. -/
def bitStep (c : Half) : Half := if c.getLsbD 0 then (c >>> 1) ^^^ 0x8408#16 else c >>> 1

/-- The checksum of a byte sequence by the procedure of 40_crc.md R92 and R93. -/
def checksum (bytes : List Byte) : Half :=
  (bytes.foldl (fun c b => bitStep^[8] (c ^^^ b.setWidth 16)) 0xFFFF#16) ^^^ 0xFFFF#16

/-- SIGN_BYTES as a number. -/
def signBytes (cfg : Config) : Nat :=
  match cfg.layout with
  | .layout0 => 0
  | .layout1 => 1

/-- The sign byte ENC writes, if the layout has one. -/
def sign (cfg : Config) : Option Byte :=
  match cfg.layout with
  | .layout0 => none
  | .layout1 => some cfg.signValue

/-- The bytes of a frame before its checksum, field by field (41_frame_codec.md R102). -/
def frameHeadToParameters (sg : Option Byte) (cc : Byte) (ps : List Byte) : List Byte :=
  [0x7E#8, 0x55#8, BitVec.ofNat 8 (8 + sg.toList.length + ps.length), 0x00#8, 0x00#8, 0x01#8, 0x00#8]
    ++ sg.toList ++ [cc, 0x00#8] ++ ps

/-- The checksum field of that frame: the procedure over everything after the head (30_encoding.md R65). -/
def frameChecksum (sg : Option Byte) (cc : Byte) (ps : List Byte) : Half :=
  checksum ((frameHeadToParameters sg cc ps).drop 2)

/-- The frame, checksum low byte first (41_frame_codec.md R102, 20_memory.md R42). -/
def frame (sg : Option Byte) (cc : Byte) (ps : List Byte) : List Byte :=
  frameHeadToParameters sg cc ps ++
    [BitVec.ofNat 8 ((frameChecksum sg cc ps).toNat % 256), BitVec.ofNat 8 ((frameChecksum sg cc ps).toNat / 256)]

/-- Whether a prefix is within PREFIX_MAX. -/
def PrefixFits (cfg : Config) (p : List Byte) : Prop := ∀ m, cfg.prefixMax = some m → p.length ≤ m

/-- The state with one more result. -/
def answered (s : State) (r : Result) : State := { s with results := s.results ++ [r] }

/-- The state after a built frame has gone to its destination: returned to the caller, or handed to `send` once with
the whole payload, the outcome of `send` being whatever it is (43_paths.md R160, R161). -/
def delivered (dest : TxDest) (bytes : List Byte) (s : State) : State :=
  match dest with
  | .caller => answered s (.encoded bytes)
  | .transport reportId =>
    { answered s (.transmitted reportId bytes (Config.freeSendOutcome s.draws)) with draws := s.draws + 1 }

/-- A record whose fields are the bytes at the positions of 41_frame_codec.md R112, with SIGN_BYTES = `S`. -/
structure ReadsByPosition (S : Nat) (bytes : List Byte) (f : Frame) : Prop where
  head0 : bytes[0]? = some f.head.1
  head1 : bytes[1]? = some f.head.2
  length : bytes[2]? = some f.length
  source0 : bytes[3]? = some f.sourceAddr.1
  source1 : bytes[4]? = some f.sourceAddr.2
  target0 : bytes[5]? = some f.targetAddr.1
  target1 : bytes[6]? = some f.targetAddr.2
  sign : f.sign = if S = 1 then bytes[7]? else none
  command : bytes[7 + S]? = some f.command
  reserved : bytes[8 + S]? = some f.reserved
  parameters : f.parameters = (bytes.drop (9 + S)).take (f.length.toNat - 8 - S)
  checksum : ∃ lo hi, bytes[f.length.toNat + 1]? = some lo ∧ bytes[f.length.toNat + 2]? = some hi ∧
    f.checksum.toNat = lo.toNat + 256 * hi.toNat

/-- The buffers DECODE accepts (41_frame_codec.md R111): a length byte of at least 8 + S, and as many bytes as it
asks for. -/
def Accepted (S : Nat) (bytes : List Byte) (l : Byte) : Prop :=
  bytes[2]? = some l ∧ 8 + S ≤ l.toNat ∧ 3 + l.toNat ≤ bytes.length

/-- A frame as 42_reassembler.md R144 describes it: marker, and a size given by its length byte. -/
def Sized (f : List Byte) : Prop :=
  f[0]? = some 0x7E#8 ∧ f[1]? = some 0x55#8 ∧ ∃ l : Byte, f[2]? = some l ∧ f.length = l.toNat + 3

/-- A sequence of PUSHes: the bytes, the start, the emitted frames and the discard events in order, the end. -/
inductive Pushes : List Byte → State → List (List Byte) → List Event → State → Prop where
  | nil (s : State) : Pushes [] s [] [] s
  | cons {b : Byte} {bs : List Byte} {s t u : State} {f : Option (List Byte)} {e : Option Event}
      {fs : List (List Byte)} {es : List Event} :
      exec (.push b) s = .next t → t.results = s.results ++ [.pushed f e] → Pushes bs t fs es u →
      Pushes (b :: bs) s (f.toList ++ fs) (e.toList ++ es) u

/-- A sequence of CONSUMEs: times and chunks, the start, all emitted frames in order, the end. -/
inductive Feeds : List (Nat × List Byte) → State → List (List Byte) → State → Prop where
  | nil (s : State) : Feeds [] s [] s
  | cons {now : Nat} {chunk : List Byte} {rest : List (Nat × List Byte)} {s t u : State} {fs gs : List (List Byte)}
      {es : List Event} :
      exec (.consume .caller now chunk) s = .next t → t.results = s.results ++ [.consumed fs es] →
      Feeds rest t gs u → Feeds ((now, chunk) :: rest) s (fs ++ gs) u

/-- A sequence of RXPATHs: times and chunks, the start, all decoded frames in order, the end. -/
inductive Receives : List (Nat × List Byte) → State → List Frame → State → Prop where
  | nil (s : State) : Receives [] s [] s
  | cons {now : Nat} {chunk : List Byte} {rest : List (Nat × List Byte)} {s t u : State} {fs gs : List Frame}
      {es : List Event} :
      exec (.consume .decoder now chunk) s = .next t → t.results = s.results ++ [.received fs es] →
      Receives rest t gs u → Receives ((now, chunk) :: rest) s (fs ++ gs) u

/-- Non-empty pieces at times that do not go backwards and lie no more than `window` apart, the first no more than
`window` after `last`. -/
def Paced (window : Nat) : Nat → List (Nat × List Byte) → Prop
  | _, [] => True
  | last, (now, chunk) :: rest => last ≤ now ∧ now - last ≤ window ∧ chunk ≠ [] ∧ Paced window now rest

/-- The bytes of the pieces, joined. -/
def joined (pieces : List (Nat × List Byte)) : List Byte := (pieces.map Prod.snd).flatten

/-- What DECODE makes of each emitted frame in order: a record, or an error and the event that drops it. Each is what
the operation DECODE answers on that frame. -/
inductive DecodesEach (s : State) : List (List Byte) → List Frame → List Event → Prop where
  | nil : DecodesEach s [] [] []
  | decoded {f : List Byte} {fs : List (List Byte)} {r : Frame} {rs : List Frame} {es : List Event} :
      exec (.decode f) s = .next (answered s (.decoded r)) → DecodesEach s fs rs es → DecodesEach s (f :: fs) (r :: rs) es
  | dropped {f : List Byte} {fs : List (List Byte)} {e : BlockError} {rs : List Frame} {es : List Event} :
      exec (.decode f) s = .next (answered s (.error e)) → DecodesEach s fs rs es →
      DecodesEach s (f :: fs) rs (.decodeDropped f e :: es)

/-- The append of a byte does not meet the completion test: the buffer is still at most 10 bytes long, or its length
byte asks for another size (42_reassembler.md R137). -/
def NoCompletion (s : State) : Prop := s.len + 1 ≤ 10 ∨ ∃ l : Byte, s.holds 2 l ∧ s.len + 1 ≠ l.toNat + 3

/-- The byte is not dropped by transition 1 or 2 (42_reassembler.md R134, R135). -/
def HeadRight (b : Byte) (s : State) : Prop := (s.len = 0 → b = 0x7E#8) ∧ (s.len = 1 → b = 0x55#8)

/-- The bytes an operation decodes, if it is one that decodes. -/
def bytesRead : Instr → Option (List Byte)
  | .reset => none
  | .crc16 _ _ _ => none
  | .encode _ _ _ _ => none
  | .decode bytes => some bytes
  | .consume _ _ _ => none
  | .push _ => none
  | .opselReserved _ => none
  | .tagFeedback use => useRead use
  | .readTag use => useRead use
  | .readBlock use => useRead use
  | .writeBlock use => useRead use
  | .frameAny _ use => useRead use
  | .frameLayout1 _ use => useRead use
  | .rxFrame _ _ => none
where
  useRead : FrameUse → Option (List Byte)
    | .build _ _ _ => none
    | .read bytes => some bytes

/-- The prefix and the parameters an operation encodes, if it is one that encodes. -/
def operandsBuilt : Instr → Option (List Byte × List Byte)
  | .reset => none
  | .crc16 _ _ _ => none
  | .encode _ sendPrefix _ parameters => some (sendPrefix, parameters)
  | .decode _ => none
  | .consume _ _ _ => none
  | .push _ => none
  | .opselReserved _ => none
  | .tagFeedback use => useBuilt use
  | .readTag use => useBuilt use
  | .readBlock use => useBuilt use
  | .writeBlock use => useBuilt use
  | .frameAny _ use => useBuilt use
  | .frameLayout1 _ use => useBuilt use
  | .rxFrame _ _ => none
where
  useBuilt : FrameUse → Option (List Byte × List Byte)
    | .build _ sendPrefix parameters => some (sendPrefix, parameters)
    | .read _ => none

/-- SIGN_BYTES as an operation has it: the configuration's, and 1 for FRAME_LAYOUT1 (log 13). -/
def signBytesOf (i : Instr) (cfg : Config) : Nat :=
  match i with
  | .frameLayout1 _ _ => 1
  | _ => signBytes cfg

/-- The cause of MalformedFrame for each check (60_exceptions.md R170, its table). -/
def MalformedCause (S : Nat) (buffer : List Byte) : MalformedKind → Prop
  | .tooShort => buffer.length < 10
  | .truncated => ∃ l : Byte, buffer[2]? = some l ∧ buffer.length < 3 + l.toNat
  | .underLength => ∃ l : Byte, buffer[2]? = some l ∧ l.toNat < 8 + S

/-- Which operation may end with an error, its cause, and what the error records (60_exceptions.md R170, its table). -/
def ErrorBelongs (i : Instr) (cfg : Config) : BlockError → Prop
  | .malformedFrame kind buffer => bytesRead i = some buffer ∧ MalformedCause (signBytesOf i cfg) buffer kind
  | .parameterOverflow count => ∃ p ps, operandsBuilt i = some (p, ps) ∧ count = ps.length ∧
      (247 - signBytesOf i cfg < ps.length ∨ ¬PrefixFits cfg p)
  | .checksumMismatch received computed =>
    cfg.verifyCrc = true ∧ received ≠ computed ∧ ∃ bytes l lo hi, bytesRead i = some bytes ∧ bytes[2]? = some l ∧
      bytes[l.toNat + 1]? = some lo ∧ bytes[l.toNat + 2]? = some hi ∧ received.toNat = lo.toNat + 256 * hi.toNat ∧
      computed = checksum ((bytes.drop 2).take (l.toNat - 1))

/-- The operations that have no effect on the block's state (30_encoding.md R77, column "state touched"). -/
def Pure : Instr → Prop
  | .reset => False
  | .consume _ _ _ => False
  | .push _ => False
  | .rxFrame _ _ => False
  | .crc16 _ _ _ => True
  | .encode _ _ _ _ => True
  | .decode _ => True
  | .opselReserved _ => True
  | .tagFeedback _ => True
  | .readTag _ => True
  | .readBlock _ => True
  | .writeBlock _ => True
  | .frameAny _ _ => True
  | .frameLayout1 _ _ => True

end Sys2Proof.Spec

section
open Sys2Proof Sys2Proof.Machine Sys2Proof.Spec

/-! ### Reset and the step -/

/-- 70_reset_and_hazards.md R200: RESET sets `len` to 0 and writes nothing else; the reassembler is then in EMPTY. The
appended result says that the operation ended (log 4), and the cleared mark that nothing has written `last_activity`
since (log 3); both fields are the model's own. R200 (D14) is the spec's own decision. -/
def Obligations.ResetClearsOnlyFillCount : Prop :=
  ∀ s : State, exec .reset s = .next { s with len := 0, stamped := false, results := s.results ++ [.done] } ∧
    ∀ t, exec .reset s = .next t → t.fsm = .empty

/-- 10_state.md R32 and 00_scope.md R6: after reset `len` is 0, the state EMPTY, and the parameters are this
hardware's. That nothing is listed in the buffer is log 2; the two marks, the queue and the trace are the model's own
(log 3, log 16, log 4, log 5).
R32 (D14) is the spec's own decision. -/
def Obligations.ResetStateValues : Prop :=
  State.reset.len = 0 ∧ State.reset.fsm = .empty ∧ (∀ a, Memory.read State.reset.buf a = none) ∧
  State.reset.cfg.staleWindow = 1000 ∧ State.reset.cfg.bufCap = 100 ∧ State.reset.cfg.layout = .layout0 ∧
  State.reset.cfg.verifyCrc = false ∧ State.reset.cfg.prefixMax = none ∧ State.reset.cfg.timeBits = none ∧
  State.reset.stamped = false ∧ State.reset.consuming = false ∧ State.reset.requests = [] ∧ State.reset.results = []

/-- The invariant holds at reset, and no CONSUME is under way. -/
def Obligations.ResetStateMeetsInvariant : Prop := State.reset.Ready

/-- A step runs the operation the first request decodes to, on the state without that request; one that would overlap an
unfinished CONSUME, as all but PUSH do, is refused (20_memory.md R48; log 16, log 20); with no request the block holds
its state; a request that is no operation is refused (60_exceptions.md R178, R186; log 5). R186 is the spec's own
inference. R48 (D21) and R178 (D22) are the spec's own decision. -/
def Obligations.StepRunsDecodedRequest : Prop :=
  ∀ s : State,
    (∀ r rest i, s.requests = r :: rest → decodeRequest r = .ok i → i.wf = true →
      (s.consuming = false ∨ ∃ b, i = .push b) → step s = exec i { s with requests := rest }) ∧
    (∀ r rest i, s.requests = r :: rest → decodeRequest r = .ok i → i.wf = true → s.consuming = true →
      (∀ b, i ≠ .push b) → step s = .refused .overlap) ∧
    (∀ r rest e, s.requests = r :: rest → decodeRequest r = .error e → step s = .refused (.undecodable e)) ∧
    (s.requests = [] → step s = .next s)

/-- Select codes and frame headers of 30_encoding.md R77 and R70, written out, decode to their operations. R70 is the
spec's own inference. R77 (D1) is the spec's own decision. The form of a request is the model's choice (log 6). -/
def Obligations.SpecWordsDecode : Prop :=
  decodeTableWord 8 0x00 = some .reset ∧ decodeTableWord 8 0x01 = some (.crc16 [] 0 0) ∧
  decodeTableWord 8 0x02 = some (.encode .caller [] 0x00#8 []) ∧ decodeTableWord 8 0x03 = some (.decode []) ∧
  decodeTableWord 8 0x04 = some (.consume .caller 0 []) ∧ decodeTableWord 8 0x05 = some (.opselReserved 5#4) ∧
  decodeTableWord 8 0x0F = some (.opselReserved 15#4) ∧
  decodeRequest ⟨.frame0, [0x7E#8, 0x55#8, 0x00#8, 0x00#8, 0x00#8, 0x01#8, 0x00#8, 0x16#8, 0x00#8], [.seq [], .seq []]⟩
    = .ok (.readTag (.build .caller [] [])) ∧
  decodeRequest ⟨.frame0, [0x7E#8, 0x55#8, 0x00#8, 0x00#8, 0x00#8, 0x01#8, 0x00#8, 0x15#8, 0x00#8], [.seq [], .seq []]⟩
    = .ok (.tagFeedback (.build .caller [] [])) ∧
  decodeRequest ⟨.frame0, [0x7E#8, 0x55#8, 0x00#8, 0x00#8, 0x00#8, 0x01#8, 0x00#8, 0x70#8, 0x00#8], [.seq [], .seq []]⟩
    = .ok (.readBlock (.build .caller [] [])) ∧
  decodeRequest ⟨.frame0, [0x7E#8, 0x55#8, 0x00#8, 0x00#8, 0x00#8, 0x01#8, 0x00#8, 0x71#8, 0x00#8], [.seq [], .seq []]⟩
    = .ok (.writeBlock (.build .caller [] []))

/-- Decode of encode is the operation, for every well-formed operation with every operand. The form of a request is
the model's choice (log 6). -/
def Obligations.DecodeOfEncodeIsSame : Prop := ∀ i : Instr, i.wf = true → decodeRequest (encodeInstr i) = .ok i

/-- Whatever the decoder accepts is well-formed. -/
def Obligations.DecodedIsWellFormed : Prop := ∀ (r : Request) (i : Instr), decodeRequest r = .ok i → i.wf = true

/-- 30_encoding.md R77, 93_implementation_defined.md U17: the select codes 0x5 to 0xF are refused, whatever the state.
R77 (D1) is the spec's own decision. -/
def Obligations.ReservedSelectorsRefused : Prop :=
  ∀ sel : BitVec 4, 5 ≤ sel.toNat →
    decodeTableWord 8 sel.toNat = some (.opselReserved sel) ∧
    ∀ s : State, exec (.opselReserved sel) s = .refused (.reservedOpsel sel)

/-! ### CRC16 -/

/-- 40_crc.md R92: inside its range CRC16 is the bitwise procedure, and it changes nothing. R92 is the spec's own
inference. The loop is marked as general knowledge (log 11). -/
def Obligations.Crc16IsBitwiseProcedure : Prop :=
  ∀ (s : State) (bytes : List Byte) (start stop : Nat), start ≤ stop → stop ≤ bytes.length →
    exec (.crc16 bytes start stop) s = .next (answered s (.crc (checksum ((bytes.drop start).take (stop - start)))))

/-- 40_crc.md R96: the three cases of a range: inside the bytes it has a result, with start > end the result is
0x0000, and with start < end and end beyond the bytes the operation is refused. R96 (D19) is the spec's own decision.
-/
def Obligations.Crc16RangeCases : Prop :=
  ∀ (s : State) (bytes : List Byte) (start stop : Nat),
    (start ≤ stop → stop ≤ bytes.length → ∃ c, exec (.crc16 bytes start stop) s = .next (answered s (.crc c))) ∧
    (stop < start → exec (.crc16 bytes start stop) s = .next (answered s (.crc 0x0000#16))) ∧
    (start < stop → bytes.length < stop →
      exec (.crc16 bytes start stop) s = .refused (.crcRange start stop bytes.length))

/-- 40_crc.md R95: the empty range gives 0x0000. -/
def Obligations.Crc16EmptyRangeIsZero : Prop :=
  ∀ (s : State) (bytes : List Byte) (k : Nat), exec (.crc16 bytes k k) s = .next (answered s (.crc 0x0000#16))

/-- 40_crc.md R94: the result depends on the slice only. R94 is the spec's own inference. -/
def Obligations.Crc16DependsOnSliceOnly : Prop :=
  ∀ (s : State) (bytes : List Byte) (start stop : Nat), start ≤ stop → stop ≤ bytes.length →
    ∃ c, exec (.crc16 bytes start stop) s = .next (answered s (.crc c)) ∧
      exec (.crc16 ((bytes.drop start).take (stop - start)) 0 (stop - start)) s = .next (answered s (.crc c))

/-- 40_crc.md R99 (b): a sequence followed by its own checksum, low byte first, has the checksum 0x0F47. R99 is the
spec's own inference. -/
def Obligations.Crc16ResidueIsConstant : Prop :=
  ∀ (s : State) (m : List Byte) (c : Half), exec (.crc16 m 0 m.length) s = .next (answered s (.crc c)) →
    exec (.crc16 (m ++ [BitVec.ofNat 8 (c.toNat % 256), BitVec.ofNat 8 (c.toNat / 256)]) 0 (m.length + 2)) s =
      .next (answered s (.crc 0x0F47#16))

/-! ### ENCODE and the transmit path -/

/-- 41_frame_codec.md R102: inside the precondition the result is the prefix and the frame, field by field; outside it
is ParameterOverflow with the parameter count. Nothing else changes. -/
def Obligations.EncodeBuildsFrame : Prop :=
  ∀ (s : State) (p : List Byte) (cc : Byte) (ps : List Byte),
    (ps.length ≤ 247 - signBytes s.cfg → PrefixFits s.cfg p →
      exec (.encode .caller p cc ps) s = .next (answered s (.encoded (p ++ frame (sign s.cfg) cc ps)))) ∧
    (¬(ps.length ≤ 247 - signBytes s.cfg ∧ PrefixFits s.cfg p) →
      exec (.encode .caller p cc ps) s = .next (answered s (.error (.parameterOverflow ps.length))))

/-- 41_frame_codec.md R103, first sentence: the size of the result. R103 is the spec's own inference. -/
def Obligations.EncodeResultSize : Prop :=
  ∀ (s : State) (p : List Byte) (cc : Byte) (ps : List Byte), ps.length ≤ 247 - signBytes s.cfg → PrefixFits s.cfg p →
    ∃ bytes, exec (.encode .caller p cc ps) s = .next (answered s (.encoded bytes)) ∧
      bytes.length = p.length + 11 + signBytes s.cfg + ps.length

/-- 30_encoding.md R70 and R65: in layout 0 what ENCODE returns matches the mask and match of the command's row,
carries its size in the length byte, passes the residue test of 40_crc.md R99, and is decoded as that row's frame. R70
and R99 are the spec's own inference. -/
def Obligations.EncodedFrameMatchesItsRow : Prop :=
  ∀ (s : State) (cc : Byte) (ps : List Byte), s.cfg.layout = .layout0 → ps.length ≤ 247 →
    ∃ f, exec (.encode .caller [] cc ps) s = .next (answered s (.encoded f)) ∧
      maskMatch frame0Mask (frame0Match cc) f = true ∧
      (∃ l : Byte, f[2]? = some l ∧ l.toNat = 8 + ps.length ∧ f.length = l.toNat + 3 ∧
        exec (.crc16 f 2 (l.toNat + 3)) s = .next (answered s (.crc 0x0F47#16))) ∧
      decodeRequest ⟨.frame0, f, []⟩ = .ok (frame0Row cc (.read f))

/-- 43_paths.md R160, R161: TXPATH hands to `send`, once, exactly what ENCODE returns, and returns its outcome; where
ENCODE raises, it ends with the same error and `send` is not called. The outcome is a free value (log 8): the statement
holds whatever it is. -/
def Obligations.TransmitPathSendsWhatEncodeReturns : Prop :=
  ∀ (s : State) (reportId : Int) (p : List Byte) (cc : Byte) (ps : List Byte),
    (∀ bytes, exec (.encode .caller p cc ps) s = .next (answered s (.encoded bytes)) →
      exec (.encode (.transport reportId) p cc ps) s = .next (delivered (.transport reportId) bytes s)) ∧
    (∀ e, exec (.encode .caller p cc ps) s = .next (answered s (.error e)) →
      exec (.encode (.transport reportId) p cc ps) s = .next (answered s (.error e)))

/-! ### DECODE -/

/-- 41_frame_codec.md R111: the three checks in order, and that together they accept exactly the buffers that have a
length byte of at least 8 + S and as many bytes as it asks for. R111 (D5) is the spec's own decision. -/
def Obligations.DecodeChecksInOrder : Prop :=
  ∀ (s : State) (bytes : List Byte),
    (bytes.length < 10 →
      exec (.decode bytes) s = .next (answered s (.error (.malformedFrame .tooShort bytes)))) ∧
    (∀ l : Byte, bytes[2]? = some l → 10 ≤ bytes.length → bytes.length < 3 + l.toNat →
      exec (.decode bytes) s = .next (answered s (.error (.malformedFrame .truncated bytes)))) ∧
    (∀ l : Byte, bytes[2]? = some l → 10 ≤ bytes.length → 3 + l.toNat ≤ bytes.length →
      l.toNat < 8 + signBytes s.cfg →
      exec (.decode bytes) s = .next (answered s (.error (.malformedFrame .underLength bytes)))) ∧
    ((∃ l, Accepted (signBytes s.cfg) bytes l) ↔
      ∀ kind, exec (.decode bytes) s ≠ .next (answered s (.error (.malformedFrame kind bytes))))

/-- 41_frame_codec.md R112: on an accepted buffer DECODE returns the record of the bytes at the fixed positions; with
VERIFY_CRC = 1 and a wrong checksum it raises ChecksumMismatch instead. -/
def Obligations.DecodeReadsByPosition : Prop :=
  ∀ (s : State) (bytes : List Byte) (l : Byte), Accepted (signBytes s.cfg) bytes l →
    ∃ f, ReadsByPosition (signBytes s.cfg) bytes f ∧
      (s.cfg.verifyCrc = false ∨ checksum ((bytes.drop 2).take (l.toNat - 1)) = f.checksum →
        exec (.decode bytes) s = .next (answered s (.decoded f))) ∧
      (s.cfg.verifyCrc = true → checksum ((bytes.drop 2).take (l.toNat - 1)) ≠ f.checksum →
        exec (.decode bytes) s = .next (answered s
          (.error (.checksumMismatch f.checksum (checksum ((bytes.drop 2).take (l.toNat - 1)))))))

/-- 41_frame_codec.md R118, last sentence: a decoded record satisfies length = 8 + S + len(parameters). R118 (D7) is
the spec's own decision. -/
def Obligations.DecodedLengthCountsParameters : Prop :=
  ∀ (s t : State) (bytes : List Byte) (f : Frame), exec (.decode bytes) s = .next t →
    t.results = s.results ++ [.decoded f] → f.length.toNat = 8 + signBytes s.cfg + f.parameters.length

/-- 41_frame_codec.md R117: bytes beyond the frame have no effect on the result. R117 (D8) is the spec's own decision.
-/
def Obligations.DecodeIgnoresTrailingBytes : Prop :=
  ∀ (s : State) (bytes extra : List Byte) (l : Byte), Accepted (signBytes s.cfg) bytes l →
    ∃ r, exec (.decode bytes) s = .next (answered s r) ∧ exec (.decode (bytes ++ extra)) s = .next (answered s r)

/-- 41_frame_codec.md R115: with VERIFY_CRC = 0 the last two bytes of a frame are returned as received and decide
nothing: other checksum bytes give the same record but for its checksum. R115 (D6) is the spec's own decision. -/
def Obligations.DecodeDoesNotValidateChecksum : Prop :=
  ∀ (s : State) (body : List Byte) (l lo hi lo' hi' : Byte), s.cfg.verifyCrc = false → body[2]? = some l →
    8 + signBytes s.cfg ≤ l.toNat → body.length = l.toNat + 1 →
    ∃ f, exec (.decode (body ++ [lo, hi])) s = .next (answered s (.decoded f)) ∧
      f.checksum.toNat = lo.toNat + 256 * hi.toNat ∧
      exec (.decode (body ++ [lo', hi'])) s = .next (answered s
        (.decoded { f with checksum := BitVec.ofNat 16 (lo'.toNat + 256 * hi'.toNat) }))

/-- 41_frame_codec.md R120 (and R121 for the prefix): DECODE of what ENCODE returns, from the head on, gives back the
command and the parameters, with the fixed fields and the checksum of the checked region; it never raises. R120 and
R121 are the spec's own inference. -/
def Obligations.DecodeOfEncodedFrameReturnsOperands : Prop :=
  ∀ (s : State) (p : List Byte) (cc : Byte) (ps : List Byte), ps.length ≤ 247 - signBytes s.cfg → PrefixFits s.cfg p →
    ∃ bytes, exec (.encode .caller p cc ps) s = .next (answered s (.encoded bytes)) ∧
      exec (.decode (bytes.drop p.length)) s = .next (answered s (.decoded
        { head := (0x7E#8, 0x55#8), length := BitVec.ofNat 8 (8 + signBytes s.cfg + ps.length),
          sourceAddr := (0x00#8, 0x00#8), targetAddr := (0x01#8, 0x00#8), sign := sign s.cfg, command := cc,
          reserved := 0x00#8, parameters := ps, checksum := frameChecksum (sign s.cfg) cc ps }))

/-! ### The frame rows -/

/-- 41_frame_codec.md R122 to R126 with R102: a frame of each row is written with the row's command as data, and goes
to the caller or to the transport; a parameter list that is too long is ParameterOverflow (log 13). R126 (D27) is the
spec's own decision. -/
def Obligations.FrameRowsWriteTheirCommand : Prop :=
  ∀ (s : State) (dest : TxDest) (p ps : List Byte) (row : FrameUse → Instr) (cc : Byte),
    (row, cc) ∈ [(Instr.tagFeedback, 0x15#8), (Instr.readTag, 0x16#8), (Instr.readBlock, 0x70#8),
      (Instr.writeBlock, 0x71#8), (Instr.frameAny cc, cc)] →
    (ps.length ≤ 247 - signBytes s.cfg → PrefixFits s.cfg p →
      exec (row (.build dest p ps)) s = .next (delivered dest (p ++ frame (sign s.cfg) cc ps) s)) ∧
    (¬(ps.length ≤ 247 - signBytes s.cfg ∧ PrefixFits s.cfg p) →
      exec (row (.build dest p ps)) s = .next (answered s (.error (.parameterOverflow ps.length))))

/-- 41_frame_codec.md R122 to R126 with R112: a received frame of each row is read as DECODE reads it, and in layout
0, where its bytes fit the row, the record has the row's command and the marker (log 13). R126 (D27) is the spec's own
decision. -/
def Obligations.FrameRowsReadTheirCommand : Prop :=
  ∀ (s : State) (bytes : List Byte) (row : FrameUse → Instr) (cc : Byte),
    (row, cc) ∈ [(Instr.tagFeedback, 0x15#8), (Instr.readTag, 0x16#8), (Instr.readBlock, 0x70#8),
      (Instr.writeBlock, 0x71#8), (Instr.frameAny cc, cc)] →
    exec (row (.read bytes)) s = exec (.decode bytes) s ∧
    (∀ l, s.cfg.layout = .layout0 → s.cfg.verifyCrc = false → (row (.read bytes)).wf = true → Accepted 0 bytes l →
      ∃ f, exec (row (.read bytes)) s = .next (answered s (.decoded f)) ∧ ReadsByPosition 0 bytes f ∧
        f.command = cc ∧ f.head = (0x7E#8, 0x55#8))

/-- 41_frame_codec.md R106 and 30_encoding.md R62: a frame of layout 1 is written with SIGN_VALUE at offset 7 inside
the counted and the checked region, L = 9 + n and at most 246 parameters, and is read with the command at offset 8,
whatever layout the instance has (log 13). R106 (D3) and R62 (D2) are the spec's own decision. -/
def Obligations.LayoutOneFrameCarriesSignByte : Prop :=
  ∀ (s : State) (cc : Byte),
    (∀ dest p ps, ps.length ≤ 246 → PrefixFits s.cfg p →
      exec (.frameLayout1 cc (.build dest p ps)) s = .next (delivered dest (p ++ frame (some s.cfg.signValue) cc ps) s)) ∧
    (∀ dest p ps, ¬(ps.length ≤ 246 ∧ PrefixFits s.cfg p) →
      exec (.frameLayout1 cc (.build dest p ps)) s = .next (answered s (.error (.parameterOverflow ps.length)))) ∧
    (∀ bytes l, s.cfg.verifyCrc = false → (Instr.frameLayout1 cc (.read bytes)).wf = true → Accepted 1 bytes l →
      ∃ f, exec (.frameLayout1 cc (.read bytes)) s = .next (answered s (.decoded f)) ∧ ReadsByPosition 1 bytes f ∧
        f.command = cc)

/-- 60_exceptions.md R170: every use of every frame row ends with one result, and the block's state is what it was. -/
def Obligations.FrameRowsAlwaysAnswer : Prop :=
  ∀ (s : State) (cc : Byte) (use : FrameUse) (i : Instr),
    i ∈ [.tagFeedback use, .readTag use, .readBlock use, .writeBlock use, .frameAny cc use, .frameLayout1 cc use] →
    ∃ r t, exec i s = .next t ∧ t.results = s.results ++ [r] ∧ t.cfg = s.cfg ∧ t.buf = s.buf ∧ t.len = s.len ∧
      t.lastActivity = s.lastActivity ∧ t.stamped = s.stamped ∧ t.consuming = s.consuming ∧ t.requests = s.requests

/-! ### PUSH -/

/-- 42_reassembler.md R134: in EMPTY, inside a CONSUME, a byte other than 0x7E changes nothing and is DROP_GARBAGE. -/
def Obligations.PushDropsGarbage : Prop :=
  ∀ (s : State) (b : Byte), s.consuming = true → s.len = 0 → b ≠ 0x7E#8 →
    exec (.push b) s = .next (answered s (.pushed none (some (.dropGarbage b))))

/-- 42_reassembler.md R135: with one byte in the buffer, inside a CONSUME, a byte other than 0x55 clears it and is itself
gone. R135 (D29) is the spec's own decision. -/
def Obligations.PushDropsWrongSecondHeadByte : Prop :=
  ∀ (s : State) (b : Byte), s.consuming = true → s.len = 1 → b ≠ 0x55#8 →
    exec (.push b) s = .next (answered { s with len := 0 } (.pushed none (some (.dropHead2 b))))

/-- 42_reassembler.md R136: in every case that transitions 1 and 2 do not take, the byte is written at `buf[len]` and
`len` goes up by one; `len` then stays, unless the tests that follow clear it. Where the byte completes nothing and the
cap is not passed it stays, and nothing else of the state changes. A CONSUME is under way (R132). -/
def Obligations.PushAppendsByte : Prop :=
  ∀ (s : State) (b : Byte), s.consuming = true → HeadRight b s →
    (s.Inv →
      ∃ t, exec (.push b) s = .next t ∧ Memory.read t.buf s.len = some b ∧
        (∀ a, a ≠ s.len → Memory.read t.buf a = Memory.read s.buf a) ∧ (t.len = s.len + 1 ∨ t.len = 0)) ∧
    (s.len + 1 ≤ s.cfg.bufCap → NoCompletion s →
      ∃ t, exec (.push b) s = .next t ∧ t.len = s.len + 1 ∧ Memory.read t.buf s.len = some b ∧
        (∀ a, a ≠ s.len → Memory.read t.buf a = Memory.read s.buf a) ∧
        t.results = s.results ++ [.pushed none none] ∧ t.cfg = s.cfg ∧ t.lastActivity = s.lastActivity ∧
        t.stamped = s.stamped ∧ t.consuming = true ∧ t.requests = s.requests ∧ t.draws = s.draws)

/-- 42_reassembler.md R137, R138: a byte that brings the buffer above 10 bytes and to the size its length byte asks for
emits the whole buffer as one frame, even where it also passes the cap (R140), and leaves EMPTY; and a PUSH emits in no
other case. A CONSUME is under way (R132). -/
def Obligations.PushEmitsCompleteFrame : Prop :=
  ∀ (s : State) (b : Byte), s.consuming = true → s.Inv →
    (∀ l : Byte, 10 < s.len + 1 → s.holds 2 l → s.len + 1 = l.toNat + 3 →
      ∃ f t, exec (.push b) s = .next t ∧ f.length = s.len + 1 ∧
        (∀ i v, i < s.len → s.holds i v → f[i]? = some v) ∧ f[s.len]? = some b ∧
        t.len = 0 ∧ t.results = s.results ++ [.pushed (some f) none] ∧
        (∀ a, a ≠ s.len → Memory.read t.buf a = Memory.read s.buf a) ∧ t.cfg = s.cfg ∧
        t.lastActivity = s.lastActivity ∧ t.stamped = s.stamped ∧ t.consuming = true ∧ t.requests = s.requests ∧
        t.draws = s.draws) ∧
    (∀ t f e, exec (.push b) s = .next t → t.results = s.results ++ [.pushed (some f) e] →
      10 < s.len + 1 ∧ ∃ l : Byte, s.holds 2 l ∧ s.len + 1 = l.toNat + 3)

/-- 42_reassembler.md R139: a byte that brings the buffer to BUF_CAP + 1 bytes without completing a frame discards all
of it. A CONSUME is under way (R132). -/
def Obligations.PushOverflowDiscardsBuffer : Prop :=
  ∀ (s : State) (b : Byte), s.consuming = true → HeadRight b s → s.len = s.cfg.bufCap → NoCompletion s →
    ∃ t, exec (.push b) s = .next t ∧ t.len = 0 ∧
      t.results = s.results ++ [.pushed none (some (.dropOverflow (s.cfg.bufCap + 1)))] ∧
      (∀ a, a ≠ s.len → Memory.read t.buf a = Memory.read s.buf a) ∧ t.cfg = s.cfg ∧
      t.lastActivity = s.lastActivity ∧ t.stamped = s.stamped ∧ t.consuming = true ∧ t.requests = s.requests ∧
      t.draws = s.draws

/-! ### CONSUME -/

/-- 42_reassembler.md R130, R131, R133: CONSUME is the staleness check, once and before any byte, then one PUSH per byte
in index order, then the timestamp; its frames and events are those of the parts, in order. The environment keeps its
duty where the check reads the clock (R152). With a finite TIME_BITS, which R152 leaves open, that the clock is read
modulo the width, in the gap and in the timestamp, is the model's choice (log 10); unbounded, as here, the reading is
`now`. The marks `stamped` and `consuming` are the model's own (log 3, log 16). -/
def Obligations.ConsumeRunsItsProcedure : Prop :=
  ∀ (s : State) (now : Nat) (chunk : List Byte), s.Inv → (s.len ≠ 0 → EnvironmentDuty now s) →
    ∃ s0 dropped u fs es,
      ((s.len ≠ 0 ∧ s.cfg.staleWindow < clockReading s.cfg now - s.lastActivity →
          s0 = { s with len := 0, consuming := true } ∧ dropped = [.dropStale s.len]) ∧
        (¬(s.len ≠ 0 ∧ s.cfg.staleWindow < clockReading s.cfg now - s.lastActivity) →
          s0 = { s with consuming := true } ∧ dropped = [])) ∧
      Pushes chunk s0 fs es u ∧
      exec (.consume .caller now chunk) s =
        .next { u with
          lastActivity := if chunk = [] then s.lastActivity else clockReading s.cfg now,
          stamped := if chunk = [] then s.stamped else true,
          consuming := false,
          results := s.results ++ [.consumed fs (dropped ++ es)] }

/-- 42_reassembler.md R131: where the gap exceeds the window and the buffer is not empty, CONSUME first discards the
buffer with DROP_STALE and then does what it does from the emptied buffer. The environment keeps its duty (R152). R131
(D12) is the spec's own decision. -/
def Obligations.StaleBufferIsDiscardedFirst : Prop :=
  ∀ (s : State) (now : Nat) (chunk : List Byte), s.Inv → s.len ≠ 0 → EnvironmentDuty now s →
    s.cfg.staleWindow < clockReading s.cfg now - s.lastActivity →
    ∃ t fs es, exec (.consume .caller now chunk) { s with len := 0 } = .next t ∧
      t.results = s.results ++ [.consumed fs es] ∧
      exec (.consume .caller now chunk) s =
        .next { t with results := s.results ++ [.consumed fs (.dropStale s.len :: es)] }

/-- 42_reassembler.md R131, "strictly greater", and R146: an empty chunk inside the window, a gap of exactly the
window included, or with an empty buffer, changes nothing; beyond the window it discards the buffer; the timestamp is
never changed. With a finite TIME_BITS, which R152 leaves open, that the gap is taken from the clock modulo the width
is the model's choice (log 10). R146 is the spec's own inference. R131 (D12) is the spec's own decision. -/
def Obligations.EmptyChunkOnlyChecksStaleness : Prop :=
  ∀ (s : State) (now : Nat), s.consuming = false →
    (NoStaleGap now s → exec (.consume .caller now []) s = .next (answered s (.consumed [] []))) ∧
    (s.len ≠ 0 → EnvironmentDuty now s → s.cfg.staleWindow < clockReading s.cfg now - s.lastActivity →
      exec (.consume .caller now []) s = .next (answered { s with len := 0 } (.consumed [] [.dropStale s.len])))

/-- 42_reassembler.md R146: a CONSUME of an empty chunk ahead of another CONSUME changes neither the frames of that
one nor the `buf` and `len` it leaves, with time that does not go backwards. TIME_BITS is unbounded. R146 is the
spec's own inference. -/
def Obligations.EmptyChunkLeavesLaterFramesAlone : Prop :=
  ∀ (s : State) (now later : Nat) (chunk : List Byte), s.Inv → s.cfg.timeBits = none → s.lastActivity ≤ now →
    now ≤ later → chunk ≠ [] →
    ∃ t u v fs es es', exec (.consume .caller now []) s = .next t ∧ exec (.consume .caller later chunk) t = .next u ∧
      u.results = t.results ++ [.consumed fs es] ∧ exec (.consume .caller later chunk) s = .next v ∧
      v.results = s.results ++ [.consumed fs es'] ∧ v.buf = u.buf ∧ v.len = u.len ∧ v.lastActivity = u.lastActivity

/-- 42_reassembler.md R152: where the clock stands before `last_activity` and the buffer is not empty, the check's
outcome is free: the buffer is kept or discarded, and nothing else can happen. The statement holds whatever the free
value is; the draw counter is the model's own (log 7). R152 (D11) is the spec's own decision. -/
def Obligations.BackwardClockLeavesStalenessFree : Prop :=
  ∀ (s : State) (now : Nat), s.consuming = false → s.len ≠ 0 → clockReading s.cfg now < s.lastActivity →
    exec (.consume .caller now []) s = .next (answered { s with draws := s.draws + 1 } (.consumed [] [])) ∨
    exec (.consume .caller now []) s =
      .next (answered { s with draws := s.draws + 1, len := 0 } (.consumed [] [.dropStale s.len]))

/-- 42_reassembler.md R133: after a non-empty chunk, whatever its bytes, `last_activity` is `now`; after an empty one
it is what it was. TIME_BITS is unbounded. R133 (D13) is the spec's own decision. -/
def Obligations.NonemptyChunkStampsActivity : Prop :=
  ∀ (s : State) (dest : RxDest) (now : Nat) (chunk : List Byte), s.Inv → s.cfg.timeBits = none →
    ∃ t, exec (.consume dest now chunk) s = .next t ∧
      t.lastActivity = (if chunk = [] then s.lastActivity else now)

/-- 42_reassembler.md R145, 60_exceptions.md R182: between operations CONSUME, RXPATH and a received frame, and inside a
CONSUME PUSH, return from every state that keeps the invariant, whatever the bytes, and leave such a state. R145 and
R182 are the spec's own inference. -/
def Obligations.ReassemblerAlwaysAnswers : Prop :=
  ∀ s : State,
    (∀ (dest : RxDest) (now : Nat) (chunk : List Byte) (i : Instr), s.Ready →
      i ∈ [.consume dest now chunk, .rxFrame now chunk] →
      ∃ r t, exec i s = .next t ∧ t.results = s.results ++ [r] ∧ t.Ready ∧ t.cfg = s.cfg ∧ t.requests = s.requests) ∧
    (∀ b : Byte, s.Inv → s.consuming = true →
      ∃ r t, exec (.push b) s = .next t ∧ t.results = s.results ++ [r] ∧ t.Inv ∧ t.consuming = true ∧
        t.cfg = s.cfg ∧ t.requests = s.requests)

/-- 42_reassembler.md R144: what every emitted frame satisfies. R144 is the spec's own inference. -/
def Obligations.EmittedFramesAreSized : Prop :=
  ∀ (s : State) (now : Nat) (chunk : List Byte), s.Inv →
    ∃ t fs es, exec (.consume .caller now chunk) s = .next t ∧ t.results = s.results ++ [.consumed fs es] ∧
      ∀ f ∈ fs, f[0]? = some 0x7E#8 ∧ f[1]? = some 0x55#8 ∧ 11 ≤ f.length ∧ f.length ≤ s.cfg.bufCap + 1 ∧
        ∃ l : Byte, f[2]? = some l ∧ f.length = l.toNat + 3 ∧ 8 ≤ l.toNat ∧ l.toNat ≤ s.cfg.bufCap - 2

/-- 42_reassembler.md R147: chunk boundaries do not matter: the bytes fed in any number of CONSUMEs over non-empty
pieces at times no more than STALE_WINDOW apart, and in one CONSUME at the first time, give the same frames in the
same order and the same `buf` and `len`. R147 is the spec's own inference. -/
def Obligations.ChunkBoundariesDoNotMatter : Prop :=
  ∀ (s : State) (now : Nat) (chunk : List Byte) (rest : List (Nat × List Byte)), s.Inv → s.cfg.timeBits = none →
    NoStaleGap now s → chunk ≠ [] → Paced s.cfg.staleWindow now rest →
    ∃ fs u v es, Feeds ((now, chunk) :: rest) s fs u ∧
      exec (.consume .caller now (joined ((now, chunk) :: rest))) s = .next v ∧
      v.results = s.results ++ [.consumed fs es] ∧ v.buf = u.buf ∧ v.len = u.len

/-- 42_reassembler.md R151 (a): from EMPTY a run of bytes none of which is 0x7E has no effect on what follows. R151 is
the spec's own inference. -/
def Obligations.LeadingGarbageHasNoEffect : Prop :=
  ∀ (s : State) (now : Nat) (garbage bytes : List Byte), s.Inv → s.len = 0 → 0x7E#8 ∉ garbage →
    ∃ t u fs es, exec (.consume .caller now bytes) s = .next t ∧ t.results = s.results ++ [.consumed fs es] ∧
      exec (.consume .caller now (garbage ++ bytes)) s = .next u ∧
      u.results = s.results ++ [.consumed fs (garbage.map Event.dropGarbage ++ es)] ∧ u.buf = t.buf ∧ u.len = t.len

/-- 42_reassembler.md R149, first sentence, the frames that pass: a frame of 11 to BUF_CAP + 1 bytes fed from EMPTY is
emitted, it alone and whole, with no event, and leaves EMPTY. R149 is the spec's own inference. -/
def Obligations.SizedFramePasses : Prop :=
  ∀ (s : State) (now : Nat) (f : List Byte), s.Inv → s.len = 0 → Sized f → 11 ≤ f.length →
    f.length ≤ s.cfg.bufCap + 1 →
    ∃ t, exec (.consume .caller now f) s = .next t ∧ t.results = s.results ++ [.consumed [f] []] ∧ t.len = 0

/-- 42_reassembler.md R149 and R150: bytes that start with the marker and whose length byte is below 8 or asks for
more than BUF_CAP + 1 bytes are collected and all discarded at the byte that makes them BUF_CAP + 1. R149 and R150 are
the spec's own inference. -/
def Obligations.UnmatchableLengthIsDiscardedAtCap : Prop :=
  ∀ (s : State) (now : Nat) (bytes : List Byte) (l : Byte), s.Inv → s.len = 0 → bytes[0]? = some 0x7E#8 →
    bytes[1]? = some 0x55#8 → bytes[2]? = some l → bytes.length = s.cfg.bufCap + 1 →
    l.toNat < 8 ∨ s.cfg.bufCap + 1 < l.toNat + 3 →
    ∃ t, exec (.consume .caller now bytes) s = .next t ∧
      t.results = s.results ++ [.consumed [] [.dropOverflow (s.cfg.bufCap + 1)]] ∧ t.len = 0

/-- 42_reassembler.md R145, 70_reset_and_hazards.md R214: from any state at most BUF_CAP + 1 further bytes, whatever
they are, bring the reassembler to EMPTY. R145 and R214 are the spec's own inference. -/
def Obligations.ReassemblerReturnsToEmpty : Prop :=
  ∀ (s : State) (now : Nat) (bytes : List Byte), s.Inv → NoStaleGap now s → bytes.length = s.cfg.bufCap + 1 →
    ∃ k t, 1 ≤ k ∧ k ≤ s.cfg.bufCap + 1 ∧ exec (.consume .caller now (bytes.take k)) s = .next t ∧ t.len = 0

/-! ### The receive path -/

/-- 43_paths.md R162, R163: RXPATH is CONSUME, then DECODE of each emitted frame in order; a frame whose DECODE raises
is dropped with an event and the rest are still decoded; the reassembler's state is CONSUME's. R162 (D28) is the
spec's own decision. -/
def Obligations.ReceivePathDecodesEachEmittedFrame : Prop :=
  ∀ (s : State) (now : Nat) (chunk : List Byte), s.Inv →
    ∃ t fs es out dropped, exec (.consume .caller now chunk) s = .next t ∧
      t.results = s.results ++ [.consumed fs es] ∧ DecodesEach s fs out dropped ∧
      exec (.consume .decoder now chunk) s = .next { t with results := s.results ++ [.received out (es ++ dropped)] }

/-- 41_frame_codec.md R127: in layout 0 with VERIFY_CRC = 0 DECODE never fails on the receive path: one record for
each emitted frame, and no event beyond CONSUME's. R127 is the spec's own inference. -/
def Obligations.LayoutZeroReceiveNeverDrops : Prop :=
  ∀ (s : State) (now : Nat) (chunk : List Byte), s.Inv → s.cfg.layout = .layout0 → s.cfg.verifyCrc = false →
    ∃ t u fs es out, exec (.consume .caller now chunk) s = .next t ∧ t.results = s.results ++ [.consumed fs es] ∧
      exec (.consume .decoder now chunk) s = .next u ∧ u.results = s.results ++ [.received out es] ∧
      out.length = fs.length ∧ ∀ e ∈ es, ∀ f r, e ≠ .decodeDropped f r

/-- 43_paths.md R165: what ENCODE returns, split into any non-empty chunks without a stale gap and fed to RXPATH from
EMPTY, yields exactly one Frame, with that command and those parameters. R165 is the spec's own inference. -/
def Obligations.LoopBackReturnsOperands : Prop :=
  ∀ (s : State) (p : List Byte) (cc : Byte) (ps : List Byte) (now : Nat) (chunk : List Byte)
    (rest : List (Nat × List Byte)), s.Inv → s.len = 0 → s.cfg.layout = .layout0 → s.cfg.timeBits = none →
    ps.length ≤ 247 → ps.length + 10 ≤ s.cfg.bufCap → PrefixFits s.cfg p → 0x7E#8 ∉ p → chunk ≠ [] →
    Paced s.cfg.staleWindow now rest →
    ∃ bytes, exec (.encode .caller p cc ps) s = .next (answered s (.encoded bytes)) ∧
      (joined ((now, chunk) :: rest) = bytes →
        ∃ f u, Receives ((now, chunk) :: rest) s [f] u ∧ f.command = cc ∧ f.parameters = ps)

/-- 42_reassembler.md R144 and 43_paths.md R162: a received frame is the chunk of one RXPATH (log 14); one of a size
that passes yields its record and leaves EMPTY. R144 is the spec's own inference. R162 (D28) is the spec's own
decision. -/
def Obligations.ReceivedFrameRunsReceivePath : Prop :=
  ∀ (s : State) (now : Nat) (f : List Byte), s.Inv →
    (∃ t, exec (.rxFrame now f) s = .next t ∧ exec (.consume .decoder now f) s = .next t) ∧
    (s.len = 0 → s.cfg.layout = .layout0 → s.cfg.verifyCrc = false → Sized f → 11 ≤ f.length →
      f.length ≤ s.cfg.bufCap + 1 →
      ∃ t r, exec (.rxFrame now f) s = .next t ∧ t.results = s.results ++ [.received [r] []] ∧ t.len = 0 ∧
        ReadsByPosition 0 f r)

/-! ### Rules about the whole machine -/

/-- The invariant of 10_state.md R23, (e) included, is kept by every step, from every state that meets it; and a step
from between operations ends between operations. R23 is the spec's own inference. That an unwritten byte has no value,
and that `stamped` and `consuming` hold what R23 (e) speaks of, are the model's choice (log 2, log 3, log 16). -/
def Obligations.StepKeepsInvariant : Prop :=
  (∀ s t : State, s.Inv → step s = .next t → t.Inv) ∧ (∀ s t : State, s.Ready → step s = .next t → t.Ready)

/-- 20_memory.md R56, 70_reset_and_hazards.md R205: from a state that meets the invariant no step is ever stuck. R56
is the spec's own inference. R205 (D32) is the spec's own decision. -/
def Obligations.StepNeverStuck : Prop := ∀ s : State, s.Inv → SafeOutcome (step s) = true

/-- 10_state.md R27: no operation changes the configuration. R27 (D18) is the spec's own decision. That the parameters
stand in State is the model's choice (log 1). -/
def Obligations.ConfigurationNeverChanges : Prop := ∀ s t : State, step s = .next t → t.cfg = s.cfg

/-- 60_exceptions.md R183, 20_memory.md R47: only RESET, CONSUME, PUSH and a received frame change `buf`, `len` and
`last_activity`: every other operation leaves them, and the pending requests, as they were. R183 (D23) is the spec's
own decision. -/
def Obligations.PureOperationsLeaveBlockState : Prop :=
  ∀ (i : Instr) (s t : State), Pure i → exec i s = .next t →
    t.buf = s.buf ∧ t.len = s.len ∧ t.lastActivity = s.lastActivity ∧ t.stamped = s.stamped ∧
      t.consuming = s.consuming ∧ t.cfg = s.cfg ∧ t.requests = s.requests

/-- 60_exceptions.md R170: an operation that ends has exactly one result, normal or an error; and an error is of the
operation that raises it, with the cause and the information of its row of the table: MalformedFrame and, with
VERIFY_CRC = 1, ChecksumMismatch from DECODE, ParameterOverflow from ENCODE, none from CRC16, CONSUME, PUSH and RESET.
That ParameterOverflow records the parameter count for an overlong prefix too, where R170 says "the offending count", is
deduced (log 12); that a frame row's build and read forms are ENCODE and DECODE of it is the model's choice (log 13). -/
def Obligations.EveryOperationHasOneResult : Prop :=
  ∀ (i : Instr) (s t : State), exec i s = .next t →
    ∃ r, t.results = s.results ++ [r] ∧ t.requests = s.requests ∧ ∀ e, r = .error e → ErrorBelongs i s.cfg e

/-- 10_state.md R26, 60_exceptions.md R181: no operation reads an earlier operation's outcome: with any other trace of
results, and any other pending requests, it does the same. R26 is the spec's own inference. -/
def Obligations.EarlierResultsAreNeverRead : Prop :=
  ∀ (i : Instr) (s t : State) (rs : List Result) (qs : List Request), exec i s = .next t →
    ∃ r, t.results = s.results ++ [r] ∧
      exec i { s with results := rs, requests := qs } = .next { t with results := rs ++ [r], requests := qs }

/-- 60_exceptions.md R180: an operation that ends with an error leaves the state exactly as it was. R180 is the spec's
own inference. -/
def Obligations.ErrorsChangeNothing : Prop :=
  ∀ (i : Instr) (s t : State) (e : BlockError), exec i s = .next t → t.results = s.results ++ [.error e] →
    t = answered s (.error e)

/-- 10_state.md R21: bytes at or above `len` are never read: two states that differ only in them give the same results
and again differ only in them. -/
def Obligations.BytesAboveFillCountAreNeverRead : Prop :=
  ∀ (i : Instr) (s t : State) (m : Memory), s.Inv → State.Inv { s with buf := m } →
    (∀ k, k < s.len → Memory.read m k = Memory.read s.buf k) → exec i s = .next t →
    ∃ u, exec i { s with buf := m } = .next u ∧ u.results = t.results ∧ u.len = t.len ∧
      u.lastActivity = t.lastActivity ∧ u.stamped = t.stamped ∧ u.consuming = t.consuming ∧ u.draws = t.draws ∧
      ∀ k, k < t.len → Memory.read u.buf k = Memory.read t.buf k

/-- 10_state.md R29, R32: with an empty buffer `last_activity` is not read: a CONSUME or RXPATH of a non-empty chunk
does the same whatever value it has. R29 (D11) and R32 (D14) are the spec's own decision. -/
def Obligations.TimestampUnreadWhileEmpty : Prop :=
  ∀ (s : State) (x : Nat) (dest : RxDest) (now : Nat) (chunk : List Byte), s.Inv → s.len = 0 → chunk ≠ [] →
    ∃ t, exec (.consume dest now chunk) s = .next t ∧
      exec (.consume dest now chunk) { s with lastActivity := x } = .next t

/-- 30_encoding.md R77, 42_reassembler.md R132: outside a CONSUME a PUSH is refused, and by the step too. That the state
says whether a CONSUME is under way is the model's choice (log 16). R77 (D1) is the spec's own decision. -/
def Obligations.PushOutsideConsumeIsRefused : Prop :=
  ∀ (s : State) (b : Byte), s.consuming = false →
    exec (.push b) s = .refused .pushOutsideConsume ∧
    ∀ r rest, s.requests = r :: rest → decodeRequest r = .ok (.push b) → step s = .refused .pushOutsideConsume

/-- 10_state.md R29, R32: `last_activity` is never read before it has been written. In a state that keeps the invariant
and in which nothing has written it since reset, a step does the same whatever value it holds: it stops with the same
refusal, or goes to the same state, the timestamp still being what it was unless the step wrote it. So from reset no
step depends on the value the model gives it there (log 3). R29 (D11) and R32 (D14) are the spec's own decision. -/
def Obligations.UnwrittenTimestampIsNeverRead : Prop :=
  ∀ (s : State) (x : Nat), s.Inv → s.stamped = false →
    (∀ t, step s = .next t →
      (t.stamped = true ∧ step { s with lastActivity := x } = .next t) ∨
      (t.stamped = false ∧ t.lastActivity = s.lastActivity ∧
        step { s with lastActivity := x } = .next { t with lastActivity := x })) ∧
    (∀ r, step s = .refused r → step { s with lastActivity := x } = .refused r)

end
end

