-- ==== Sys2Proof/Laws/State.lean ====
section
/-! SUPPORT. One lemma per field and update of the State, and what every field is at reset. -/

namespace Sys2Proof.Machine

section setLen
variable (s : State) (n : Nat)

@[simp] theorem State.setLen_cfg : (s.setLen n).cfg = s.cfg := rfl
@[simp] theorem State.setLen_buf : (s.setLen n).buf = s.buf := rfl
@[simp] theorem State.setLen_len : (s.setLen n).len = n := rfl
@[simp] theorem State.setLen_lastActivity : (s.setLen n).lastActivity = s.lastActivity := rfl
@[simp] theorem State.setLen_stamped : (s.setLen n).stamped = s.stamped := rfl
@[simp] theorem State.setLen_consuming : (s.setLen n).consuming = s.consuming := rfl
@[simp] theorem State.setLen_requests : (s.setLen n).requests = s.requests := rfl
@[simp] theorem State.setLen_results : (s.setLen n).results = s.results := rfl
@[simp] theorem State.setLen_draws : (s.setLen n).draws = s.draws := rfl

end setLen

section setByte
variable (s : State) (a : Nat) (v : Byte)

@[simp] theorem State.setByte_cfg : (s.setByte a v).cfg = s.cfg := rfl
@[simp] theorem State.setByte_buf : (s.setByte a v).buf = Memory.write s.buf a v := rfl
@[simp] theorem State.setByte_len : (s.setByte a v).len = s.len := rfl
@[simp] theorem State.setByte_lastActivity : (s.setByte a v).lastActivity = s.lastActivity := rfl
@[simp] theorem State.setByte_stamped : (s.setByte a v).stamped = s.stamped := rfl
@[simp] theorem State.setByte_consuming : (s.setByte a v).consuming = s.consuming := rfl
@[simp] theorem State.setByte_requests : (s.setByte a v).requests = s.requests := rfl
@[simp] theorem State.setByte_results : (s.setByte a v).results = s.results := rfl
@[simp] theorem State.setByte_draws : (s.setByte a v).draws = s.draws := rfl

end setByte

section setLastActivity
variable (s : State) (t : Nat)

@[simp] theorem State.setLastActivity_cfg : (s.setLastActivity t).cfg = s.cfg := rfl
@[simp] theorem State.setLastActivity_buf : (s.setLastActivity t).buf = s.buf := rfl
@[simp] theorem State.setLastActivity_len : (s.setLastActivity t).len = s.len := rfl
@[simp] theorem State.setLastActivity_lastActivity : (s.setLastActivity t).lastActivity = t := rfl
@[simp] theorem State.setLastActivity_stamped : (s.setLastActivity t).stamped = true := rfl
@[simp] theorem State.setLastActivity_consuming : (s.setLastActivity t).consuming = s.consuming := rfl
@[simp] theorem State.setLastActivity_requests : (s.setLastActivity t).requests = s.requests := rfl
@[simp] theorem State.setLastActivity_results : (s.setLastActivity t).results = s.results := rfl
@[simp] theorem State.setLastActivity_draws : (s.setLastActivity t).draws = s.draws := rfl

end setLastActivity

section forgetActivity
variable (s : State)

@[simp] theorem State.forgetActivity_cfg : s.forgetActivity.cfg = s.cfg := rfl
@[simp] theorem State.forgetActivity_buf : s.forgetActivity.buf = s.buf := rfl
@[simp] theorem State.forgetActivity_len : s.forgetActivity.len = s.len := rfl
@[simp] theorem State.forgetActivity_lastActivity : s.forgetActivity.lastActivity = s.lastActivity := rfl
@[simp] theorem State.forgetActivity_stamped : s.forgetActivity.stamped = false := rfl
@[simp] theorem State.forgetActivity_consuming : s.forgetActivity.consuming = s.consuming := rfl
@[simp] theorem State.forgetActivity_requests : s.forgetActivity.requests = s.requests := rfl
@[simp] theorem State.forgetActivity_results : s.forgetActivity.results = s.results := rfl
@[simp] theorem State.forgetActivity_draws : s.forgetActivity.draws = s.draws := rfl

end forgetActivity

section setConsuming
variable (s : State) (c : Bool)

@[simp] theorem State.setConsuming_cfg : (s.setConsuming c).cfg = s.cfg := rfl
@[simp] theorem State.setConsuming_buf : (s.setConsuming c).buf = s.buf := rfl
@[simp] theorem State.setConsuming_len : (s.setConsuming c).len = s.len := rfl
@[simp] theorem State.setConsuming_lastActivity : (s.setConsuming c).lastActivity = s.lastActivity := rfl
@[simp] theorem State.setConsuming_stamped : (s.setConsuming c).stamped = s.stamped := rfl
@[simp] theorem State.setConsuming_consuming : (s.setConsuming c).consuming = c := rfl
@[simp] theorem State.setConsuming_requests : (s.setConsuming c).requests = s.requests := rfl
@[simp] theorem State.setConsuming_results : (s.setConsuming c).results = s.results := rfl
@[simp] theorem State.setConsuming_draws : (s.setConsuming c).draws = s.draws := rfl

end setConsuming

section advanceDraws
variable (s : State)

@[simp] theorem State.advanceDraws_cfg : s.advanceDraws.cfg = s.cfg := rfl
@[simp] theorem State.advanceDraws_buf : s.advanceDraws.buf = s.buf := rfl
@[simp] theorem State.advanceDraws_len : s.advanceDraws.len = s.len := rfl
@[simp] theorem State.advanceDraws_lastActivity : s.advanceDraws.lastActivity = s.lastActivity := rfl
@[simp] theorem State.advanceDraws_stamped : s.advanceDraws.stamped = s.stamped := rfl
@[simp] theorem State.advanceDraws_consuming : s.advanceDraws.consuming = s.consuming := rfl
@[simp] theorem State.advanceDraws_requests : s.advanceDraws.requests = s.requests := rfl
@[simp] theorem State.advanceDraws_results : s.advanceDraws.results = s.results := rfl
@[simp] theorem State.advanceDraws_draws : s.advanceDraws.draws = s.draws + 1 := rfl

end advanceDraws

section record
variable (s : State) (r : Result)

@[simp] theorem State.record_cfg : (s.record r).cfg = s.cfg := rfl
@[simp] theorem State.record_buf : (s.record r).buf = s.buf := rfl
@[simp] theorem State.record_len : (s.record r).len = s.len := rfl
@[simp] theorem State.record_lastActivity : (s.record r).lastActivity = s.lastActivity := rfl
@[simp] theorem State.record_stamped : (s.record r).stamped = s.stamped := rfl
@[simp] theorem State.record_consuming : (s.record r).consuming = s.consuming := rfl
@[simp] theorem State.record_requests : (s.record r).requests = s.requests := rfl
@[simp] theorem State.record_results : (s.record r).results = s.results ++ [r] := rfl
@[simp] theorem State.record_draws : (s.record r).draws = s.draws := rfl

end record

section setRequests
variable (s : State) (rs : List Request)

@[simp] theorem State.setRequests_cfg : (s.setRequests rs).cfg = s.cfg := rfl
@[simp] theorem State.setRequests_buf : (s.setRequests rs).buf = s.buf := rfl
@[simp] theorem State.setRequests_len : (s.setRequests rs).len = s.len := rfl
@[simp] theorem State.setRequests_lastActivity : (s.setRequests rs).lastActivity = s.lastActivity := rfl
@[simp] theorem State.setRequests_stamped : (s.setRequests rs).stamped = s.stamped := rfl
@[simp] theorem State.setRequests_consuming : (s.setRequests rs).consuming = s.consuming := rfl
@[simp] theorem State.setRequests_requests : (s.setRequests rs).requests = rs := rfl
@[simp] theorem State.setRequests_results : (s.setRequests rs).results = s.results := rfl
@[simp] theorem State.setRequests_draws : (s.setRequests rs).draws = s.draws := rfl

end setRequests

@[simp] theorem State.reset_cfg : State.reset.cfg = hardwareConfig := rfl
@[simp] theorem State.reset_buf : State.reset.buf = [] := rfl
@[simp] theorem State.reset_len : State.reset.len = 0 := rfl
@[simp] theorem State.reset_lastActivity : State.reset.lastActivity = 0 := rfl
@[simp] theorem State.reset_stamped : State.reset.stamped = false := rfl
@[simp] theorem State.reset_consuming : State.reset.consuming = false := rfl
@[simp] theorem State.reset_requests : State.reset.requests = [] := rfl
@[simp] theorem State.reset_results : State.reset.results = [] := rfl
@[simp] theorem State.reset_draws : State.reset.draws = 0 := rfl

/-- Two states with the same fields are the same state. -/
theorem State.eq_of_fields {s t : State} (h1 : s.cfg = t.cfg) (h2 : s.buf = t.buf) (h3 : s.len = t.len)
    (h4 : s.lastActivity = t.lastActivity) (h5 : s.stamped = t.stamped) (h6 : s.consuming = t.consuming)
    (h7 : s.requests = t.requests) (h8 : s.results = t.results) (h9 : s.draws = t.draws) : s = t := by
  cases s; cases t; simp_all

@[simp] theorem finish_eq (r : Result) (s : State) : finish r s = .next (s.record r) := rfl

@[simp] theorem raise_eq (e : BlockError) (s : State) : raise e s = .next (s.record (.error e)) := rfl

/-- Setting `len` twice is setting it once. -/
@[simp] theorem State.setLen_setLen (s : State) (m n : Nat) : (s.setLen m).setLen n = s.setLen n := rfl

/-- Setting `consuming` twice is setting it once. -/
@[simp] theorem State.setConsuming_setConsuming (s : State) (c d : Bool) :
    (s.setConsuming c).setConsuming d = s.setConsuming d := rfl

/-- Setting `consuming` to what it is changes nothing. -/
theorem State.setConsuming_self {s : State} {c : Bool} (h : s.consuming = c) : s.setConsuming c = s := by
  cases s; cases h; rfl

end Sys2Proof.Machine
end

