-- ==== Sys2Proof/Laws/Memory.lean ====
section
/-! SUPPORT. The laws of the buffer memory: a read after a write, and that a write keeps the canonical form. -/

namespace Sys2Proof.Machine

@[simp] theorem Memory.read_nil (a : Nat) : Memory.read [] a = none := rfl

@[simp] theorem Memory.wf_nil : Memory.wf [] = true := rfl

/-- A read after a write to the same address gives the byte written. -/
@[simp] theorem Memory.read_write_same (m : Memory) (a : Nat) (v : Byte) :
    Memory.read (Memory.write m a v) a = some v := by
  induction m with
  | nil => simp [Memory.write, Memory.read]
  | cons c m ih =>
    obtain ⟨k, u⟩ := c
    simp only [Memory.write]
    split
    · simp [Memory.read]
    · split
      · simp [Memory.read]
      · have : k ≠ a := by omega
        simp [Memory.read, this, ih]

/-- A write leaves every other address alone. -/
theorem Memory.read_write_other (m : Memory) {a b : Nat} (v : Byte) (h : b ≠ a) :
    Memory.read (Memory.write m a v) b = Memory.read m b := by
  induction m with
  | nil => simp [Memory.write, Memory.read, h.symm]
  | cons c m ih =>
    obtain ⟨k, u⟩ := c
    simp only [Memory.write]
    split
    · simp [Memory.read, h.symm]
    · split
      · subst_vars; simp [Memory.read, h.symm]
      · simp [Memory.read, ih]

/-- A read after a write, as one equation. -/
theorem Memory.read_write (m : Memory) (a b : Nat) (v : Byte) :
    Memory.read (Memory.write m a v) b = if b = a then some v else Memory.read m b := by
  split
  · subst_vars; simp
  · exact Memory.read_write_other m v ‹_›

/-- A write above a lower bound keeps the addresses rising above it. -/
theorem Memory.rising_write (m : Memory) (lower : Option Nat) (a : Nat) (v : Byte)
    (h : Memory.rising lower m = true) (ha : Memory.above lower a = true) :
    Memory.rising lower (Memory.write m a v) = true := by
  induction m generalizing lower with
  | nil => simp [Memory.write, Memory.rising, ha]
  | cons c m ih =>
    obtain ⟨k, u⟩ := c
    simp only [Memory.rising, Bool.and_eq_true] at h
    simp only [Memory.write]
    split
    · rename_i hk
      simp [Memory.rising, ha, h.2, show Memory.above (some a) k = true from by simpa [Memory.above] using hk]
    · split
      · subst_vars; simp [Memory.rising, ha, h.2]
      · simp only [Memory.rising, Bool.and_eq_true]
        exact ⟨h.1, ih (some k) h.2 (by simp only [Memory.above, decide_eq_true_eq]; omega)⟩

/-- Every write keeps the canonical form. -/
theorem Memory.wf_write (m : Memory) (a : Nat) (v : Byte) (h : Memory.wf m = true) :
    Memory.wf (Memory.write m a v) = true := by
  have hall : ∀ m : Memory, (m.all fun c => some c.2 != Memory.unlisted) = true := by
    intro m; simp [Memory.unlisted]
  simp only [Memory.wf, Bool.and_eq_true] at h ⊢
  exact ⟨Memory.rising_write m none a v h.1 rfl, hall _⟩

end Sys2Proof.Machine
end

