-- ==== Sys2Proof/Laws/Access.lean ====
section
/-! SUPPORT. The checked accesses of the buffer, each with one lemma that says when it succeeds and what it gives. -/

namespace Sys2Proof.Machine

/-- A checked read succeeds exactly below `len` on a written byte. -/
theorem readByte_ok_iff {s : State} {i : Nat} {b : Byte} :
    readByte s i = .ok b ↔ i < s.len ∧ s.holds i b := by
  unfold readByte
  split
  · split <;> simp_all [State.holds]
  · simp_all

/-- A checked run of reads gives the list of the bytes at its addresses. -/
theorem readBytes_ok_iff {s : State} {n i : Nat} {l : List Byte} :
    readBytes s i n = .ok l ↔ l.length = n ∧ ∀ k b, l[k]? = some b → readByte s (i + k) = .ok b := by
  induction n generalizing i l with
  | zero =>
    simp only [readBytes, Except.ok.injEq, List.length_eq_zero_iff]
    constructor
    · rintro rfl; simp
    · intro h; exact h.1.symm
  | succ n ih =>
    simp only [readBytes]
    constructor
    · intro h
      split at h
      · cases h
      · split at h
        · cases h
        · rename_i _ b hb _ bs hbs
          simp only [Except.ok.injEq] at h
          subst h
          obtain ⟨hl, hr⟩ := ih.mp hbs
          refine ⟨by simp [hl], fun k c hk => ?_⟩
          cases k with
          | zero => simp only [List.getElem?_cons_zero, Option.some.injEq] at hk; subst hk; simpa using hb
          | succ k =>
            simp only [List.getElem?_cons_succ] at hk
            simpa [Nat.add_assoc, Nat.add_comm 1 k] using hr k c hk
    · rintro ⟨hl, hr⟩
      cases l with
      | nil => simp at hl
      | cons b bs =>
        have hb : readByte s i = .ok b := by simpa using hr 0 b rfl
        have hbs : readBytes s (i + 1) n = .ok bs := by
          refine ih.mpr ⟨by simpa using hl, fun k c hk => ?_⟩
          have := hr (k + 1) c (by simpa using hk)
          simpa [Nat.add_assoc, Nat.add_comm 1 k] using this
        rw [hb]; simp [hbs]

/-- The whole buffer reads as a list exactly when that list has length `len` and its bytes are the buffer's. -/
theorem bufferContents_ok_iff {s : State} {l : List Byte} :
    bufferContents s = .ok l ↔ l.length = s.len ∧ ∀ k b, l[k]? = some b → s.holds k b := by
  unfold bufferContents
  rw [readBytes_ok_iff]
  constructor
  · rintro ⟨hl, h⟩
    exact ⟨hl, fun k b hk => by simpa using (readByte_ok_iff.mp (h k b hk)).2⟩
  · rintro ⟨hl, h⟩
    refine ⟨hl, fun k b hk => readByte_ok_iff.mpr ⟨?_, by simpa using h k b hk⟩⟩
    have := (List.getElem?_eq_some_iff.mp hk).1
    omega

/-- Where every byte below `len` has been written, the whole buffer reads. -/
theorem bufferContents_of_written {s : State} (h : ∀ i, i < s.len → ∃ v, s.holds i v) :
    ∃ l, bufferContents s = .ok l := by
  suffices H : ∀ n i, i + n ≤ s.len → ∃ l, readBytes s i n = .ok l from H s.len 0 (by omega)
  intro n
  induction n with
  | zero => intro i _; exact ⟨[], rfl⟩
  | succ n ih =>
    intro i hi
    obtain ⟨v, hv⟩ := h i (by omega)
    obtain ⟨l, hl⟩ := ih (i + 1) (by omega)
    have hb : readByte s i = .ok v := readByte_ok_iff.mpr ⟨by omega, hv⟩
    exact ⟨v :: l, by simp [readBytes, hb, hl]⟩

/-- A checked append succeeds exactly on an address the buffer has. -/
theorem appendByte_ok_iff {b : Byte} {s t : State} :
    appendByte b s = .ok t ↔ s.len ≤ s.cfg.bufCap ∧ t = s.appended b := by
  unfold appendByte
  split <;> simp_all [eq_comm]

section appended
variable (s : State) (b : Byte)

@[simp] theorem State.appended_cfg : (s.appended b).cfg = s.cfg := rfl
@[simp] theorem State.appended_len : (s.appended b).len = s.len + 1 := rfl
@[simp] theorem State.appended_buf : (s.appended b).buf = Memory.write s.buf s.len b := rfl
@[simp] theorem State.appended_lastActivity : (s.appended b).lastActivity = s.lastActivity := rfl
@[simp] theorem State.appended_stamped : (s.appended b).stamped = s.stamped := rfl
@[simp] theorem State.appended_consuming : (s.appended b).consuming = s.consuming := rfl
@[simp] theorem State.appended_requests : (s.appended b).requests = s.requests := rfl
@[simp] theorem State.appended_results : (s.appended b).results = s.results := rfl
@[simp] theorem State.appended_draws : (s.appended b).draws = s.draws := rfl

end appended

/-- What a byte of the buffer reads as after an append. -/
theorem holds_appended {s : State} {b v : Byte} {i : Nat} :
    (s.appended b).holds i v ↔ if i = s.len then b = v else s.holds i v := by
  simp only [State.holds, State.appended_buf, Memory.read_write]
  split <;> simp

/-- After an append the whole buffer is what it was, then the byte. -/
theorem bufferContents_appended {s : State} {b : Byte} {l : List Byte} (h : bufferContents s = .ok l) :
    bufferContents (s.appended b) = .ok (l ++ [b]) := by
  obtain ⟨hl, hb⟩ := bufferContents_ok_iff.mp h
  refine bufferContents_ok_iff.mpr ⟨by simp [hl], fun k c hk => holds_appended.mpr ?_⟩
  rw [List.getElem?_append] at hk
  split at hk
  · rw [if_neg (by omega)]; exact hb k c hk
  · have : k - l.length = 0 := by
      have := (List.getElem?_eq_some_iff.mp hk).1; simp at this; omega
    rw [this] at hk
    rw [if_pos (by omega)]
    simpa using hk

end Sys2Proof.Machine
end

