-- ==== Sys2Proof/Laws/Crc.lean ====
section
/-! SUPPORT. The laws of slices, of the checksum's byte order and of the checksum (40_crc.md R93 to R95). -/

namespace Sys2Proof

@[simp] theorem slice_empty {s : List Byte} {a b : Nat} (h : b ≤ a) : slice s a b = [] := by
  simp [slice, Nat.sub_eq_zero_of_le h]

@[simp] theorem slice_nil (a b : Nat) : slice [] a b = [] := by simp [slice]

theorem slice_length (s : List Byte) (a b : Nat) : (slice s a b).length = min (b - a) (s.length - a) := by
  simp [slice]

/-- A slice from 0 that covers the sequence is the sequence. -/
theorem slice_all {s : List Byte} {b : Nat} (h : s.length ≤ b) : slice s 0 b = s := by
  simp [slice, List.take_of_length_le h]

/-- A slice that ends inside a first part does not see what follows it. -/
theorem slice_append_left {s t : List Byte} {a b : Nat} (h : b ≤ s.length) : slice (s ++ t) a b = slice s a b := by
  unfold slice
  rcases Nat.le_total b a with hab | hab
  · simp [Nat.sub_eq_zero_of_le hab]
  · rw [List.drop_append_of_le_length (by omega), List.take_append_of_le_length (by simp; omega)]

theorem byteAt_append_left {s t : List Byte} {i : Nat} (h : i < s.length) : byteAt (s ++ t) i = byteAt s i := by
  simp [byteAt, List.getElem?_append_left h]

/-- Low byte first and read low byte first is the number again (20_memory.md R42). -/
@[simp] theorem halfOfLowHigh_wire (c : Half) : halfOfLowHigh (lo8 c) (hi8 c) = c := by
  apply BitVec.eq_of_toNat_eq
  have := c.isLt
  simp only [halfOfLowHigh, zext16, lo8, hi8, BitVec.toNat_add, BitVec.toNat_mul, BitVec.toNat_setWidth,
    BitVec.extractLsb'_toNat, BitVec.toNat_ofNat, Nat.shiftRight_eq_div_pow]
  omega

/-- The number a low byte and a high byte stand for. -/
theorem halfOfLowHigh_toNat (lo hi : Byte) : (halfOfLowHigh lo hi).toNat = lo.toNat + 256 * hi.toNat := by
  have := lo.isLt; have := hi.isLt
  simp [halfOfLowHigh, zext16]; omega

/-- The low byte as a number's remainder. -/
theorem lo8_eq_ofNat (c : Half) : lo8 c = BitVec.ofNat 8 (c.toNat % 256) := by
  apply BitVec.eq_of_toNat_eq; simp [lo8]

/-- The high byte as a number's quotient. -/
theorem hi8_eq_ofNat (c : Half) : hi8 c = BitVec.ofNat 8 (c.toNat / 256) := by
  apply BitVec.eq_of_toNat_eq; simp [hi8, Nat.shiftRight_eq_div_pow]

@[simp] theorem wireBytes_length (c : Half) : (wireBytes c).length = 2 := rfl

end Sys2Proof

namespace Sys2Proof.Machine

@[simp] theorem crcOf_nil : crcOf [] = 0x0000#16 := by decide +kernel

/-- The working register after one sequence and then another (40_crc.md R93). -/
theorem crcRegister_append (l m : List Byte) : crcRegister (l ++ m) = m.foldl crcByte (crcRegister l) := by
  simp [crcRegister]

/-- The checksum of an empty range is 0x0000 (40_crc.md R95). -/
theorem crc16_empty {bytes : List Byte} {a b : Nat} (h : b ≤ a) : crc16 bytes a b = 0x0000#16 := by
  simp [crc16, slice_empty h]

/-- A range inside a first part does not see what follows it. -/
theorem crc16_append_left {s t : List Byte} {a b : Nat} (h : b ≤ s.length) : crc16 (s ++ t) a b = crc16 s a b := by
  simp [crc16, slice_append_left h]

/-- The bit step is linear over exclusive or (40_crc.md R93). -/
theorem crcStep_xor (x y : Half) : crcStep (x ^^^ y) = crcStep x ^^^ crcStep y := by
  simp only [crcStep, BitVec.getLsbD_xor]
  cases x.getLsbD 0 <;> cases y.getLsbD 0 <;> simp [BitVec.ushiftRight_xor_distrib]
  · ac_rfl
  · ac_rfl
  · rw [show ∀ a b p : Half, a ^^^ p ^^^ (b ^^^ p) = a ^^^ b ^^^ (p ^^^ p) by intros; ac_rfl]; simp

theorem crcSteps_xor (n : Nat) (x y : Half) : crcSteps n (x ^^^ y) = crcSteps n x ^^^ crcSteps n y := by
  induction n generalizing x y with
  | zero => rfl
  | succ n ih => simp only [crcSteps, crcStep_xor, ih]

/-- A number is its low byte and its high byte moved up. -/
theorem half_split (c : Half) : c = zext16 (lo8 c) ^^^ (zext16 (hi8 c) <<< 8) := by
  apply BitVec.eq_of_getLsbD_eq
  intro i hi
  simp [zext16, lo8, hi8]
  rcases Nat.lt_or_ge i 8 with h | h
  · simp [h, hi]
  · simp [hi, show ¬ i < 8 by omega, show i - 8 < 8 by omega, show i - 8 < 16 by omega, show 8 + (i - 8) = i by omega]

/-- Whatever the working register holds, its own checksum fed low byte first leaves one constant (40_crc.md R99). -/
theorem crcByte_wire (c : Half) : crcByte (crcByte c (lo8 (c ^^^ crcXorOut))) (hi8 (c ^^^ crcXorOut)) = 0xF0B8#16 := by
  have hlo : lo8 (c ^^^ crcXorOut) = lo8 c ^^^ 0xFF#8 := by simp only [lo8, BitVec.extractLsb'_xor]; rfl
  have hhi : hi8 (c ^^^ crcXorOut) = hi8 c ^^^ 0xFF#8 := by simp only [hi8, BitVec.extractLsb'_xor]; rfl
  have z : ∀ b : Byte, zext16 (b ^^^ 0xFF#8) = zext16 b ^^^ 0x00FF#16 := by decide +kernel
  have up : ∀ b : Byte, crcSteps 8 (zext16 b <<< 8) = zext16 b := by decide +kernel
  have cancel : ∀ a b p : Half, a ^^^ b ^^^ (a ^^^ p) = b ^^^ p := fun a b p => by
    rw [show a ^^^ b ^^^ (a ^^^ p) = (a ^^^ a) ^^^ (b ^^^ p) by ac_rfl]; simp
  have low : c ^^^ zext16 (lo8 c ^^^ 0xFF#8) = (zext16 (hi8 c) <<< 8) ^^^ 0x00FF#16 := by
    rw [z]; nth_rewrite 1 [half_split c]; exact cancel _ _ _
  rw [hlo, hhi]
  unfold crcByte
  rw [low, crcSteps_xor 8 (zext16 (hi8 c) <<< 8), up, z, cancel]
  decide +kernel

end Sys2Proof.Machine
end

