-- ==== Sys2Proof/Laws/Codec.lean ====
section
/-! SUPPORT. What ENC and DEC give, each said once: the size and the fields of a built frame, that DECODE never reads
outside a buffer that passed its checks, and what the shared operations of the codec answer. -/

namespace Sys2Proof

@[simp] theorem Layout.signBytes_layout0 : Layout.layout0.signBytes = 0 := rfl
@[simp] theorem Layout.signBytes_layout1 : Layout.layout1.signBytes = 1 := rfl

/-- The command stands at offset 7 + SIGN_BYTES (30_encoding.md R62). -/
@[simp] theorem Layout.commandAt_eq (l : Layout) : l.commandAt = 7 + l.signBytes := by cases l <;> rfl

/-- The reserved byte stands at offset 8 + SIGN_BYTES (30_encoding.md R62). -/
@[simp] theorem Layout.reservedAt_eq (l : Layout) : l.reservedAt = 8 + l.signBytes := by cases l <;> rfl

/-- The parameters start at offset 9 + SIGN_BYTES (30_encoding.md R62). -/
@[simp] theorem Layout.parametersAt_eq (l : Layout) : l.parametersAt = 9 + l.signBytes := by cases l <;> rfl

/-- L = 8 + SIGN_BYTES + n (30_encoding.md R62). -/
theorem Layout.overhead_eq (l : Layout) : l.overhead = 8 + l.signBytes := by cases l <;> rfl

/-- FIXED_BYTES is at least 6, so the counted bytes that are no parameters are at least 8. -/
theorem Layout.eight_le_overhead (l : Layout) : 8 ≤ l.overhead := by cases l <;> decide

end Sys2Proof

namespace Sys2Proof.Machine

@[simp] theorem signField_length (cfg : Config) : (signField cfg).length = cfg.layout.signBytes := by
  unfold signField; cases cfg.layout <;> rfl

/-- The frame without its checksum has L + 1 bytes (41_frame_codec.md R102). -/
@[simp] theorem frameBody_length (cfg : Config) (c : Byte) (ps : List Byte) :
    (frameBody cfg c ps).length = cfg.layout.overhead + ps.length + 1 := by
  simp [frameBody, Layout.overhead_eq]; omega

/-- The frame has L + 3 bytes (41_frame_codec.md R103). -/
@[simp] theorem buildFrame_length (cfg : Config) (c : Byte) (ps : List Byte) :
    (buildFrame cfg c ps).length = cfg.layout.overhead + ps.length + 3 := by
  simp [buildFrame]

theorem nMax_add_overhead (l : Layout) : l.nMax + l.overhead = 255 := by cases l <;> rfl

/-- The length byte of a frame with an accepted parameter count does not wrap (41_frame_codec.md R102). -/
theorem lengthByte_toNat {l : Layout} {n : Nat} (h : n ≤ l.nMax) :
    (BitVec.ofNat 8 (l.overhead + n)).toNat = l.overhead + n := by
  have := nMax_add_overhead l
  rw [BitVec.toNat_ofNat, Nat.mod_eq_of_lt (by omega)]

/-- ENCODE inside its precondition (41_frame_codec.md R101, R102). -/
theorem encodeFrame_ok {cfg : Config} {p : List Byte} {c : Byte} {ps : List Byte}
    (hn : ps.length ≤ cfg.layout.nMax) (hp : prefixTooLong cfg p.length = false) :
    encodeFrame cfg p c ps = .ok (p ++ buildFrame cfg c ps) := by
  unfold encodeFrame
  rw [if_neg (by simp [hp]; omega)]

/-- ENCODE outside its precondition (41_frame_codec.md R101). -/
theorem encodeFrame_overflow {cfg : Config} {p : List Byte} {c : Byte} {ps : List Byte}
    (h : cfg.layout.nMax < ps.length ∨ prefixTooLong cfg p.length = true) :
    encodeFrame cfg p c ps = .error (.parameterOverflow ps.length) := by
  unfold encodeFrame
  rw [if_pos h]

/-- The checks of DECODE pass exactly on the buffers 41_frame_codec.md R111 names. -/
theorem checkFrame_none_iff {cfg : Config} {bytes : List Byte} :
    checkFrame cfg bytes = none ↔
      ∃ l, byteAt bytes 2 = some l ∧ cfg.layout.overhead ≤ l.toNat ∧ 3 + l.toNat ≤ bytes.length := by
  have ho := cfg.layout.eight_le_overhead
  have hc : countedAt = 3 := rfl
  unfold checkFrame
  split
  · rename_i h
    simp only [decMin] at h
    simp only [reduceCtorEq, false_iff, not_exists, not_and]
    intro l _ _; omega
  · split
    · simp_all
    · rename_i l hl
      split
      · simp [hl]; omega
      · split
        · simp [hl]; omega
        · simp [hl]; omega

/-- A buffer that passes the checks is read without leaving it (41_frame_codec.md R112: "no read is out of range"). -/
theorem readFrame_of_checks {cfg : Config} {bytes : List Byte} (h : checkFrame cfg bytes = none) :
    ∃ f, readFrame cfg bytes = some f ∧ byteAt bytes 2 = some f.length := by
  obtain ⟨l, hl, ho, hlen⟩ := checkFrame_none_iff.mp h
  have at_ : ∀ i, i < 3 + l.toNat → ∃ b, byteAt bytes i = some b := fun i hi =>
    ⟨bytes[i]'(by omega), by simp [byteAt]⟩
  have h8 : 8 + cfg.layout.signBytes ≤ l.toNat := cfg.layout.overhead_eq ▸ ho
  obtain ⟨b0, e0⟩ := at_ 0 (by omega)
  obtain ⟨b1, e1⟩ := at_ 1 (by omega)
  obtain ⟨b3, e3⟩ := at_ 3 (by omega)
  obtain ⟨b4, e4⟩ := at_ 4 (by omega)
  obtain ⟨b5, e5⟩ := at_ 5 (by omega)
  obtain ⟨b6, e6⟩ := at_ 6 (by omega)
  obtain ⟨b7, e7⟩ := at_ 7 (by omega)
  obtain ⟨bc, ec⟩ := at_ cfg.layout.commandAt (by simp; omega)
  obtain ⟨br, er⟩ := at_ cfg.layout.reservedAt (by simp; omega)
  obtain ⟨blo, elo⟩ := at_ (l.toNat + 1) (by omega)
  obtain ⟨bhi, ehi⟩ := at_ (l.toNat + 2) (by omega)
  have es : ∃ sg, readSign cfg bytes = some sg := by
    unfold readSign
    cases cfg.layout with
    | layout0 => exact ⟨_, rfl⟩
    | layout1 => exact ⟨some b7, by simp [e7]⟩
  obtain ⟨sg, esg⟩ := es
  refine ⟨_, by unfold readFrame; simp only [e0, e1, hl, e3, e4, e5, e6, esg, ec, er, elo, ehi]; rfl, hl⟩

/-- The option VERIFY_CRC gives the record itself or the mismatch, nothing else (41_frame_codec.md R119). -/
theorem verifyFrame_cases (cfg : Config) (bytes : List Byte) (f : Frame) :
    verifyFrame cfg bytes f = .ok f ∨
      (cfg.verifyCrc = true ∧ verifyFrame cfg bytes f =
        .error (.checksumMismatch f.checksum (crc16 bytes 2 (f.length.toNat + 1)))) := by
  unfold verifyFrame
  split
  · exact .inr ⟨by tauto, rfl⟩
  · exact .inl rfl

@[simp] theorem Config.inLayout1_layout (cfg : Config) : cfg.inLayout1.layout = .layout1 := rfl
@[simp] theorem Config.inLayout1_signValue (cfg : Config) : cfg.inLayout1.signValue = cfg.signValue := rfl
@[simp] theorem Config.inLayout1_verifyCrc (cfg : Config) : cfg.inLayout1.verifyCrc = cfg.verifyCrc := rfl
@[simp] theorem Config.inLayout1_prefixMax (cfg : Config) : cfg.inLayout1.prefixMax = cfg.prefixMax := rfl

/-- DECODE never gets stuck (20_memory.md R56). -/
theorem decodeFrame_total (cfg : Config) (bytes : List Byte) : ∃ r, decodeFrame cfg bytes = .ok r := by
  unfold decodeFrame
  cases h : checkFrame cfg bytes with
  | some k => exact ⟨_, rfl⟩
  | none =>
    obtain ⟨f, hf, -⟩ := readFrame_of_checks h
    exact ⟨verifyFrame cfg bytes f, by simp only [hf]⟩

/-- Everything DECODE can do to the state: record its result. -/
theorem runDecode_spec (cfg : Config) (bytes : List Byte) (s : State) :
    ∃ r, decodeFrame cfg bytes = .ok r ∧
      runDecode cfg bytes s = .next (s.record (match r with | .ok f => .decoded f | .error e => .error e)) := by
  obtain ⟨r, hr⟩ := decodeFrame_total cfg bytes
  refine ⟨r, hr, ?_⟩
  unfold runDecode
  cases r <;> simp [hr]

/-- Everything ENCODE and TXPATH can do to the state: record a result, and for the transport use one draw. -/
theorem runEncode_spec (cfg : Config) (dest : TxDest) (p : List Byte) (c : Byte) (ps : List Byte) (s : State) :
    ∃ r, runEncode cfg dest p c ps s = .next (s.record r) ∨ runEncode cfg dest p c ps s = .next (s.advanceDraws.record r) := by
  unfold runEncode
  cases encodeFrame cfg p c ps with
  | error e => exact ⟨.error e, .inl rfl⟩
  | ok bytes =>
    cases dest with
    | caller => exact ⟨.encoded bytes, .inl rfl⟩
    | transport r => exact ⟨_, .inr rfl⟩

/-- Everything a frame row can do to the state. -/
theorem runFrameUse_spec (cfg : Config) (c : Byte) (use : FrameUse) (s : State) :
    ∃ r, runFrameUse cfg c use s = .next (s.record r) ∨ runFrameUse cfg c use s = .next (s.advanceDraws.record r) := by
  cases use with
  | build dest p ps => exact runEncode_spec cfg dest p c ps s
  | read bytes =>
    obtain ⟨r, -, h⟩ := runDecode_spec cfg bytes s
    exact ⟨_, .inl h⟩

end Sys2Proof.Machine
end

