-- ==== Sys2Proof/Laws/Reassembler.lean ====
section
/-! SUPPORT. What PUSH can do, said once (`pushByte_cases`), and what follows for a run of PUSHes and for the parts of
CONSUME: what they look at, what they leave alone, that they never get stuck under the invariant, and that they keep
it. -/

namespace Sys2Proof.Machine

/-- The size a length byte asks for (30_encoding.md R64). -/
theorem expectedTotal_eq (l : Byte) : expectedTotal l = l.toNat + 3 := rfl

/-- The completion test was not met: it was not made, or the length byte asks for another size. -/
def NotComplete (s : State) : Prop := checkFloor < s.len → ∃ l, s.holds 2 l ∧ s.len ≠ expectedTotal l

/-- The three ends of an append: the cap discards, or the byte stays, or the frame is emitted. -/
theorem completionTest_cases {s : State} {p : PushResult} (h : completionTest s = .ok p) :
    (∃ l f, checkFloor < s.len ∧ s.holds 2 l ∧ s.len = expectedTotal l ∧ bufferContents s = .ok f ∧
      p = ⟨s.setLen 0, some f, none⟩) ∨
    (NotComplete s ∧ s.cfg.bufCap < s.len ∧ p = ⟨s.setLen 0, none, some (.dropOverflow s.len)⟩) ∨
    (NotComplete s ∧ s.len ≤ s.cfg.bufCap ∧ p = ⟨s, none, none⟩) := by
  have cap : ∀ q, capTest s = q → (s.cfg.bufCap < s.len ∧ q = ⟨s.setLen 0, none, some (.dropOverflow s.len)⟩) ∨
      (s.len ≤ s.cfg.bufCap ∧ q = ⟨s, none, none⟩) := by
    intro q hq
    unfold capTest at hq
    split at hq
    · exact .inl ⟨‹_›, hq.symm⟩
    · exact .inr ⟨by omega, hq.symm⟩
  unfold completionTest at h
  split at h
  · split at h
    · cases h
    · rename_i l hl
      have h2 := (readByte_ok_iff.mp hl).2
      split at h
      · unfold emitFrame at h
        split at h
        · cases h
        · rename_i f hf
          exact .inl ⟨l, f, ‹_›, h2, ‹_›, hf, by simpa using h.symm⟩
      · have hn : NotComplete s := fun _ => ⟨l, h2, ‹_›⟩
        rcases cap p (by simpa using h) with c | c
        · exact .inr (.inl ⟨hn, c⟩)
        · exact .inr (.inr ⟨hn, c⟩)
  · have hn : NotComplete s := fun hc => absurd hc ‹_›
    rcases cap p (by simpa using h) with c | c
    · exact .inr (.inl ⟨hn, c⟩)
    · exact .inr (.inr ⟨hn, c⟩)

/-- Everything a PUSH can do (42_reassembler.md R134 to R141), guards included. -/
theorem pushByte_cases {b : Byte} {s : State} {p : PushResult} (h : pushByte b s = .ok p) :
    (s.len = 0 ∧ b ≠ head0 ∧ p = ⟨s, none, some (.dropGarbage b)⟩) ∨
    (s.len = 1 ∧ b ≠ head1 ∧ p = ⟨s.setLen 0, none, some (.dropHead2 b)⟩) ∨
    ((s.len = 0 → b = head0) ∧ (s.len = 1 → b = head1) ∧ s.len ≤ s.cfg.bufCap ∧
      completionTest (s.appended b) = .ok p) := by
  unfold pushByte at h
  split at h
  · exact .inl ⟨by tauto, by tauto, by simpa using h.symm⟩
  · split at h
    · exact .inr (.inl ⟨by tauto, by tauto, by simpa using h.symm⟩)
    · split at h
      · cases h
      · rename_i t ht
        obtain ⟨hc, rfl⟩ := appendByte_ok_iff.mp ht
        exact .inr (.inr ⟨by tauto, by tauto, hc, h⟩)

/-- A PUSH that appends is the append and its tests. -/
theorem pushByte_append {b : Byte} {s : State} (h0 : s.len = 0 → b = head0) (h1 : s.len = 1 → b = head1)
    (hc : s.len ≤ s.cfg.bufCap) : pushByte b s = completionTest (s.appended b) := by
  unfold pushByte
  rw [if_neg (by tauto), if_neg (by tauto), appendByte_ok_iff.mpr ⟨hc, rfl⟩]

/-- What PUSH leaves alone: everything but `buf` and `len`. -/
structure SameButBuffer (s t : State) : Prop where
  cfg : t.cfg = s.cfg
  lastActivity : t.lastActivity = s.lastActivity
  stamped : t.stamped = s.stamped
  consuming : t.consuming = s.consuming
  requests : t.requests = s.requests
  results : t.results = s.results
  draws : t.draws = s.draws

theorem SameButBuffer.rfl {s : State} : SameButBuffer s s := 
  ⟨.refl _, .refl _, .refl _, .refl _, .refl _, .refl _, .refl _⟩

theorem SameButBuffer.trans {s t u : State} (h : SameButBuffer s t) (k : SameButBuffer t u) : SameButBuffer s u :=
  ⟨k.cfg.trans h.cfg, k.lastActivity.trans h.lastActivity, k.stamped.trans h.stamped, k.consuming.trans h.consuming,
    k.requests.trans h.requests, k.results.trans h.results, k.draws.trans h.draws⟩

theorem pushByte_frame {b : Byte} {s : State} {p : PushResult} (h : pushByte b s = .ok p) :
    SameButBuffer s p.state := by
  rcases pushByte_cases h with ⟨-, -, rfl⟩ | ⟨-, -, rfl⟩ | ⟨-, -, -, hc⟩
  · exact .rfl
  · exact ⟨by rfl, by rfl, by rfl, by rfl, by rfl, by rfl, by rfl⟩
  · rcases completionTest_cases hc with ⟨l, f, -, -, -, -, rfl⟩ | ⟨-, -, rfl⟩ | ⟨-, -, rfl⟩ <;>
      exact ⟨by rfl, by rfl, by rfl, by rfl, by rfl, by rfl, by rfl⟩

/-- The invariant without R23 (a) and (d), for the moment between the append and its tests. -/
structure State.Appending (s : State) : Prop where
  bufWf : Memory.wf s.buf = true
  bufRange : ∀ a, s.cfg.bufCap < a → Memory.read s.buf a = none
  lenCap : s.len ≤ s.cfg.bufCap + 1
  written : ∀ i, i < s.len → ∃ v, s.holds i v
  head0 : 1 ≤ s.len → s.holds 0 Sys2Proof.head0
  head1 : 2 ≤ s.len → s.holds 1 Sys2Proof.head1

theorem State.BufferInv.appended {s : State} {b : Byte} (hi : s.BufferInv) (h0 : s.len = 0 → b = Sys2Proof.head0)
    (h1 : s.len = 1 → b = Sys2Proof.head1) : (s.appended b).Appending where
  bufWf := Memory.wf_write _ _ _ hi.bufWf
  bufRange a ha := by
    have := hi.lenCap
    simp only [State.appended_cfg] at ha
    rw [State.appended_buf, Memory.read_write_other _ _ (by omega)]
    exact hi.bufRange a ha
  lenCap := by have := hi.lenCap; simp; omega
  written i h := by
    simp only [State.appended_len] at h
    by_cases e : i = s.len
    · exact ⟨b, holds_appended.mpr (by simp [e])⟩
    · obtain ⟨v, hv⟩ := hi.written i (by omega)
      exact ⟨v, holds_appended.mpr (by simpa [e] using hv)⟩
  head0 _ := holds_appended.mpr (by
    split
    · exact h0 (by omega)
    · exact hi.head0 (by omega))
  head1 h := holds_appended.mpr (by
    simp only [State.appended_len] at h
    split
    · exact h1 (by omega)
    · exact hi.head1 (by omega))

/-- An empty buffer meets the invariant. -/
theorem State.Appending.emptied {s : State} (h : s.Appending) : (s.setLen 0).BufferInv where
  bufWf := h.bufWf
  bufRange := h.bufRange
  lenCap := Nat.zero_le _
  written i hi := by simp at hi
  head0 h0 := by simp at h0
  head1 h1 := by simp at h1
  incomplete hc := by simp [checkFloor] at hc

theorem State.BufferInv.appending {s : State} (h : s.BufferInv) : s.Appending :=
  ⟨h.bufWf, h.bufRange, Nat.le_succ_of_le h.lenCap, h.written, h.head0, h.head1⟩

/-- The buffer's invariant looks at `buf`, `len` and the capacity alone. -/
theorem State.BufferInv.congr {s t : State} (h : s.BufferInv) (hb : t.buf = s.buf) (hl : t.len = s.len)
    (hc : t.cfg = s.cfg) : t.BufferInv := by
  obtain ⟨a, b, c, d, e, f, g⟩ := h
  constructor <;> simp only [State.holds, hb, hl, hc] <;> assumption

/-- The invariant looks besides at `stamped` and `consuming`. -/
theorem State.Inv.congr {s t : State} (h : s.Inv) (hb : t.buf = s.buf) (hl : t.len = s.len) (hc : t.cfg = s.cfg)
    (hs : t.stamped = s.stamped) (hq : t.consuming = s.consuming) : t.Inv :=
  ⟨h.toBufferInv.congr hb hl hc, fun h1 => by rw [hs, hq]; exact h.activity (hl ▸ h1)⟩

theorem State.Ready.congr {s t : State} (h : s.Ready) (hb : t.buf = s.buf) (hl : t.len = s.len) (hc : t.cfg = s.cfg)
    (hs : t.stamped = s.stamped) (hq : t.consuming = s.consuming) : t.Ready :=
  ⟨h.toInv.congr hb hl hc hs hq, hq.trans h.idle⟩

/-- With an empty buffer the whole invariant holds: R23 (e) speaks of a buffer that is not empty. -/
theorem State.BufferInv.inv_of_empty {s : State} (h : s.BufferInv) (h0 : s.len = 0) : s.Inv :=
  ⟨h, fun h1 => absurd h1 (by omega)⟩

/-- Inside a CONSUME R23 (e) holds whatever has been written. -/
theorem State.BufferInv.inv_of_consuming {s : State} (h : s.BufferInv) (hc : s.consuming = true) : s.Inv :=
  ⟨h, fun _ => .inr hc⟩

/-- A state whose timestamp has never been written has, between operations, an empty buffer (10_state.md R29, R32). -/
theorem State.Ready.empty_of_unstamped {s : State} (h : s.Ready) (hs : s.stamped = false) : s.len = 0 := by
  by_contra h0
  rcases h.activity (by omega) with h1 | h1
  · simp [hs] at h1
  · simp [h.idle] at h1

/-- PUSH keeps the buffer's invariant (10_state.md R23). -/
theorem pushByte_inv {b : Byte} {s : State} {p : PushResult} (hi : s.BufferInv) (h : pushByte b s = .ok p) :
    p.state.BufferInv := by
  rcases pushByte_cases h with ⟨-, -, rfl⟩ | ⟨-, -, rfl⟩ | ⟨h0, h1, -, hc⟩
  · exact hi
  · exact hi.appending.emptied
  · have ha := hi.appended (b := b) h0 h1
    rcases completionTest_cases hc with ⟨l, f, -, -, -, -, rfl⟩ | ⟨-, -, rfl⟩ | ⟨hn, hl, rfl⟩
    · exact ha.emptied
    · exact ha.emptied
    · refine ⟨ha.bufWf, ha.bufRange, hl, ha.written, ha.head0, ha.head1, fun h10 v hv => ?_⟩
      obtain ⟨w, hw, hne⟩ := hn h10
      have : v = w := by simpa [State.holds] using hv.symm.trans hw
      exact this ▸ hne

/-- PUSH never gets stuck under the invariant. -/
theorem pushByte_total (b : Byte) {s : State} (hi : s.BufferInv) : ∃ p, pushByte b s = .ok p := by
  by_cases g0 : s.len = 0 ∧ b ≠ Sys2Proof.head0
  · exact ⟨_, by unfold pushByte; rw [if_pos g0]⟩
  by_cases g1 : s.len = 1 ∧ b ≠ Sys2Proof.head1
  · exact ⟨_, by unfold pushByte; rw [if_neg g0, if_pos g1]⟩
  have h0 : s.len = 0 → b = Sys2Proof.head0 := by tauto
  have h1 : s.len = 1 → b = Sys2Proof.head1 := by tauto
  have ha := hi.appended (b := b) h0 h1
  rw [pushByte_append h0 h1 hi.lenCap]
  unfold completionTest
  split
  · rename_i h10
    have h2 : 2 < (s.appended b).len := by simp only [checkFloor] at h10; omega
    obtain ⟨l, hl⟩ := ha.written 2 h2
    rw [readByte_ok_iff.mpr ⟨h2, hl⟩]
    obtain ⟨f, hf⟩ := bufferContents_of_written ha.written
    dsimp only
    split
    · exact ⟨_, by unfold emitFrame; rw [hf]⟩
    · exact ⟨_, rfl⟩
  · exact ⟨_, rfl⟩

/-- What PUSH emits satisfies 42_reassembler.md R144. -/
theorem pushByte_emits {b : Byte} {s : State} {p : PushResult} {f : List Byte} (hi : s.BufferInv)
    (h : pushByte b s = .ok p) (hf : p.frame = some f) : EmittedFrame s.cfg f := by
  rcases pushByte_cases h with ⟨-, -, rfl⟩ | ⟨-, -, rfl⟩ | ⟨h0, h1, -, hc⟩
  · cases hf
  · cases hf
  · have ha := hi.appended (b := b) h0 h1
    rcases completionTest_cases hc with ⟨l, g, h10, h2, he, hg, rfl⟩ | ⟨-, -, rfl⟩ | ⟨-, -, rfl⟩
    · obtain rfl : g = f := by simpa using hf
      obtain ⟨hlen, hb⟩ := bufferContents_ok_iff.mp hg
      have hcap := ha.lenCap
      simp only [checkFloor] at h10
      have at_ : ∀ i v, i < g.length → (s.appended b).holds i v → g[i]? = some v := by
        intro i v hi' hv
        obtain ⟨c, hc'⟩ := List.getElem?_eq_some_iff.mpr ⟨hi', rfl⟩ |> fun h => (⟨_, h⟩ : ∃ c, g[i]? = some c)
        have := hb i c hc'
        simp only [State.holds] at this hv
        rw [hc']; exact this.symm.trans hv
      refine ⟨at_ 0 _ (by omega) (ha.head0 (by omega)), at_ 1 _ (by omega) (ha.head1 (by omega)), by omega,
        by simpa [hlen] using hcap, l, at_ 2 _ (by omega) h2, by omega⟩
    · cases hf
    · cases hf

/-! ### A run of PUSHes -/

@[simp] theorem pushBytes_nil (s : State) : pushBytes [] s = .ok ⟨s, [], []⟩ := rfl

/-- A run of PUSHes is its first PUSH and then the rest. -/
theorem pushBytes_cons_ok {b : Byte} {bs : List Byte} {s : State} {r : RsmResult} :
    pushBytes (b :: bs) s = .ok r ↔ ∃ p q, pushByte b s = .ok p ∧ pushBytes bs p.state = .ok q ∧
      r = ⟨q.state, p.frame.toList ++ q.frames, p.event.toList ++ q.events⟩ := by
  simp only [pushBytes]
  constructor
  · intro h
    split at h
    · cases h
    · split at h
      · cases h
      · exact ⟨_, _, ‹_›, ‹_›, by simpa using h.symm⟩
  · rintro ⟨p, q, hp, hq, rfl⟩
    simp [hp, hq]

/-- A run of PUSHes over two pieces is the run over the first and then over the second
(20_memory.md R51). -/
theorem pushBytes_append {l m : List Byte} {s : State} {q r : RsmResult} (hl : pushBytes l s = .ok q)
    (hm : pushBytes m q.state = .ok r) :
    pushBytes (l ++ m) s = .ok ⟨r.state, q.frames ++ r.frames, q.events ++ r.events⟩ := by
  induction l generalizing s q with
  | nil => simp only [pushBytes_nil, Except.ok.injEq] at hl; subst hl; simpa using hm
  | cons b bs ih =>
    obtain ⟨p, t, hp, ht, rfl⟩ := pushBytes_cons_ok.mp hl
    exact pushBytes_cons_ok.mpr ⟨p, _, hp, ih ht hm, by simp [List.append_assoc]⟩

theorem pushBytes_frame {l : List Byte} {s : State} {r : RsmResult} (h : pushBytes l s = .ok r) :
    SameButBuffer s r.state := by
  induction l generalizing s r with
  | nil => simp only [pushBytes_nil, Except.ok.injEq] at h; subst h; exact .rfl
  | cons b bs ih =>
    obtain ⟨p, q, hp, hq, rfl⟩ := pushBytes_cons_ok.mp h
    exact (pushByte_frame hp).trans (ih (r := q) hq)

theorem pushBytes_inv {l : List Byte} {s : State} {r : RsmResult} (hi : s.BufferInv) (h : pushBytes l s = .ok r) :
    r.state.BufferInv := by
  induction l generalizing s r with
  | nil => simp only [pushBytes_nil, Except.ok.injEq] at h; subst h; exact hi
  | cons b bs ih =>
    obtain ⟨p, q, hp, hq, rfl⟩ := pushBytes_cons_ok.mp h
    exact ih (r := q) (pushByte_inv hi hp) hq

theorem pushBytes_total (l : List Byte) {s : State} (hi : s.BufferInv) : ∃ r, pushBytes l s = .ok r := by
  induction l generalizing s with
  | nil => exact ⟨_, rfl⟩
  | cons b bs ih =>
    obtain ⟨p, hp⟩ := pushByte_total b hi
    obtain ⟨q, hq⟩ := ih (pushByte_inv hi hp)
    exact ⟨_, pushBytes_cons_ok.mpr ⟨p, q, hp, hq, rfl⟩⟩

theorem pushBytes_emits {l : List Byte} {s : State} {r : RsmResult} (hi : s.BufferInv) (h : pushBytes l s = .ok r) :
    ∀ f ∈ r.frames, EmittedFrame s.cfg f := by
  induction l generalizing s r with
  | nil => simp only [pushBytes_nil, Except.ok.injEq] at h; subst h; simp
  | cons b bs ih =>
    obtain ⟨p, q, hp, hq, rfl⟩ := pushBytes_cons_ok.mp h
    intro f hf
    rcases List.mem_append.mp hf with hf | hf
    · exact pushByte_emits hi hp (by simpa using hf)
    · exact (pushByte_frame hp).cfg ▸ ih (pushByte_inv hi hp) hq f hf

/-! ### PUSH sees only `cfg`, `buf` and `len` -/

/-- The state with the fields PUSH does not look at taken from another state. -/
def State.withRest (s o : State) : State := { o with cfg := s.cfg, buf := s.buf, len := s.len }

section withRest
variable (s o : State)

@[simp] theorem State.withRest_cfg : (s.withRest o).cfg = s.cfg := rfl
@[simp] theorem State.withRest_buf : (s.withRest o).buf = s.buf := rfl
@[simp] theorem State.withRest_len : (s.withRest o).len = s.len := rfl
@[simp] theorem State.withRest_lastActivity : (s.withRest o).lastActivity = o.lastActivity := rfl
@[simp] theorem State.withRest_stamped : (s.withRest o).stamped = o.stamped := rfl
@[simp] theorem State.withRest_consuming : (s.withRest o).consuming = o.consuming := rfl
@[simp] theorem State.withRest_requests : (s.withRest o).requests = o.requests := rfl
@[simp] theorem State.withRest_results : (s.withRest o).results = o.results := rfl
@[simp] theorem State.withRest_draws : (s.withRest o).draws = o.draws := rfl

end withRest

theorem readBytes_withRest (s o : State) (n : Nat) : ∀ i, readBytes (s.withRest o) i n = readBytes s i n := by
  induction n with
  | zero => intro i; rfl
  | succ n ih => intro i; simp only [readBytes, ih]; rfl

theorem completionTest_withRest (s o : State) :
    completionTest (s.withRest o) = (completionTest s).map fun p => ⟨p.state.withRest o, p.frame, p.event⟩ := by
  have hc : capTest (s.withRest o) = ⟨(capTest s).state.withRest o, (capTest s).frame, (capTest s).event⟩ := by
    unfold capTest
    split <;> split <;> first | rfl | (exfalso; simp at *; omega)
  have hr : readByte (s.withRest o) 2 = readByte s 2 := rfl
  have hb : bufferContents (s.withRest o) = bufferContents s := readBytes_withRest ..
  unfold completionTest
  rw [State.withRest_len, hr, hc]
  split
  · cases readByte s 2 with
    | error f => rfl
    | ok l =>
      dsimp only
      split
      · unfold emitFrame; rw [hb]; cases bufferContents s <;> rfl
      · rfl
  · rfl

theorem pushByte_withRest (b : Byte) (s o : State) :
    pushByte b (s.withRest o) = (pushByte b s).map fun p => ⟨p.state.withRest o, p.frame, p.event⟩ := by
  unfold pushByte
  rw [State.withRest_len]
  split
  · rfl
  · split
    · rfl
    · have : appendByte b (s.withRest o) = (appendByte b s).map fun t => t.withRest o := by
        unfold appendByte
        rw [State.withRest_len, State.withRest_cfg]; split <;> rfl
      rw [this]
      cases appendByte b s with
      | error f => rfl
      | ok t => exact completionTest_withRest ..

/-- A run of PUSHes does the same whatever the fields it does not look at hold. -/
theorem pushBytes_withRest (l : List Byte) : ∀ s o : State,
    pushBytes l (s.withRest o) = (pushBytes l s).map fun p => ⟨p.state.withRest o, p.frames, p.events⟩ := by
  induction l with
  | nil => intros; rfl
  | cons b bs ih =>
    intro s o
    simp only [pushBytes, pushByte_withRest]
    cases pushByte b s with
    | error f => rfl
    | ok p =>
      simp only [Except.map, ih]
      cases pushBytes bs p.state <;> rfl

/-! ### Accumulating -/

/-- A byte that keeps a head that is right so far, completes nothing and stays within the cap is kept. -/
theorem pushByte_keeps {b : Byte} {s : State} (h0 : s.len = 0 → b = head0) (h1 : s.len = 1 → b = head1)
    (hcap : s.len + 1 ≤ s.cfg.bufCap) (hn : NotComplete (s.appended b)) :
    pushByte b s = .ok ⟨s.appended b, none, none⟩ := by
  rw [pushByte_append h0 h1 (by omega)]
  unfold completionTest
  have hct : capTest (s.appended b) = ⟨s.appended b, none, none⟩ := by
    unfold capTest; rw [if_neg (by simpa using hcap)]
  split
  · rename_i h10
    obtain ⟨l, hl, hne⟩ := hn h10
    rw [readByte_ok_iff.mpr ⟨by simp only [checkFloor] at h10; omega, hl⟩]
    dsimp only
    rw [if_neg hne, hct]
  · rw [hct]

/-- The byte that completes a frame emits the buffer with it. -/
theorem pushByte_completes {b l : Byte} {s : State} {f : List Byte} (hf : bufferContents s = .ok f)
    (h10 : checkFloor < s.len + 1) (hcap : s.len ≤ s.cfg.bufCap) (h2 : s.holds 2 l) (hl : s.len + 1 = expectedTotal l) :
    pushByte b s = .ok ⟨(s.appended b).setLen 0, some (f ++ [b]), none⟩ := by
  have hlen : 10 ≤ s.len := by simp only [checkFloor] at h10; omega
  rw [pushByte_append (by omega) (by omega) hcap]
  unfold completionTest
  rw [if_pos (by simpa using h10),
    readByte_ok_iff.mpr ⟨by simp; omega, holds_appended.mpr (by rw [if_neg (by omega)]; exact h2)⟩]
  simp [hl, emitFrame, bufferContents_appended hf]

/-! ### The parts of CONSUME -/

/-- The staleness check changes at most `len` and the draw counter. -/
theorem stalenessCheck_frame (now : Nat) (s : State) :
    (stalenessCheck now s).1.cfg = s.cfg ∧ (stalenessCheck now s).1.buf = s.buf ∧
    (stalenessCheck now s).1.lastActivity = s.lastActivity ∧ (stalenessCheck now s).1.stamped = s.stamped ∧
    (stalenessCheck now s).1.consuming = s.consuming ∧ (stalenessCheck now s).1.requests = s.requests ∧
    (stalenessCheck now s).1.results = s.results ∧
    ((stalenessCheck now s).1.len = s.len ∨ (stalenessCheck now s).1.len = 0) := by
  unfold stalenessCheck
  split
  · simp
  · dsimp only
    split <;> split <;> simp

/-- With no stale gap the check does nothing. -/
theorem stalenessCheck_none {now : Nat} {s : State} (h : NoStaleGap now s) : stalenessCheck now s = (s, []) := by
  unfold stalenessCheck
  split
  · rfl
  · obtain ⟨hd, hg⟩ := h.resolve_left ‹_›
    have hc : clockInOrder now s = true := by simpa [clockInOrder] using hd
    have hs : isStale now s = false := by simp [isStale, hc]; omega
    simp [hc, hs]

/-- With a stale gap the check discards the buffer (42_reassembler.md R131). -/
theorem stalenessCheck_stale {now : Nat} {s : State} (h0 : s.len ≠ 0) (hd : EnvironmentDuty now s)
    (hs : s.cfg.staleWindow < clockReading s.cfg now - s.lastActivity) :
    stalenessCheck now s = (s.setLen 0, [.dropStale s.len]) := by
  have hc : clockInOrder now s = true := by simpa [clockInOrder] using hd
  unfold stalenessCheck; rw [if_neg h0]; simp [hc, isStale, hs]

theorem stalenessCheck_inv {now : Nat} {s : State} (hi : s.BufferInv) : (stalenessCheck now s).1.BufferInv := by
  obtain ⟨hc, hb, -, -, -, -, -, hl | hl⟩ := stalenessCheck_frame now s
  · exact hi.congr hb hl hc
  · exact hi.appending.emptied.congr hb hl hc

/-- CONSUME by its parts: what its PUSHes do does not depend on the mark that it is under way. -/
theorem consumeChunk_of_pushes {now : Nat} {chunk : List Byte} {s : State} {r : RsmResult}
    (hr : pushBytes chunk (stalenessCheck now s).1 = .ok r) :
    consumeChunk now chunk s =
      .ok ⟨(stampActivity now chunk r.state).setConsuming false, r.frames, (stalenessCheck now s).2 ++ r.events⟩ := by
  have e := pushBytes_withRest chunk (stalenessCheck now s).1 ((stalenessCheck now s).1.setConsuming true)
  rw [hr] at e
  have hf := pushBytes_frame hr
  have : (r.state.withRest ((stalenessCheck now s).1.setConsuming true)) = r.state.setConsuming true := by
    apply State.eq_of_fields <;> simp [hf.lastActivity, hf.stamped, hf.requests, hf.results, hf.draws]
  unfold consumeChunk
  have e' : pushBytes chunk ((stalenessCheck now s).1.setConsuming true) =
      .ok ⟨r.state.setConsuming true, r.frames, r.events⟩ := by rw [← this]; exact e
  simp only [e']
  unfold stampActivity
  split <;> rfl

/-- Whatever CONSUME answers, it answers by its parts. -/
theorem consumeChunk_cases {now : Nat} {chunk : List Byte} {s : State} {q : RsmResult}
    (h : consumeChunk now chunk s = .ok q) :
    ∃ r, pushBytes chunk (stalenessCheck now s).1 = .ok r ∧
      q = ⟨(stampActivity now chunk r.state).setConsuming false, r.frames, (stalenessCheck now s).2 ++ r.events⟩ := by
  cases hr : pushBytes chunk (stalenessCheck now s).1 with
  | error f =>
    have e := pushBytes_withRest chunk (stalenessCheck now s).1 ((stalenessCheck now s).1.setConsuming true)
    rw [hr] at e
    have e' : pushBytes chunk ((stalenessCheck now s).1.setConsuming true) = .error f := e
    unfold consumeChunk at h
    simp [e'] at h
  | ok r =>
    rw [consumeChunk_of_pushes hr] at h
    exact ⟨r, rfl, by simpa using h.symm⟩

/-- With no stale gap CONSUME is the run of PUSHes and the timestamp. -/
theorem consumeChunk_of_noStaleGap {now : Nat} {chunk : List Byte} {s : State} {r : RsmResult} (h : NoStaleGap now s)
    (hr : pushBytes chunk s = .ok r) :
    consumeChunk now chunk s = .ok ⟨(stampActivity now chunk r.state).setConsuming false, r.frames, r.events⟩ := by
  have e := stalenessCheck_none h
  have := consumeChunk_of_pushes (now := now) (chunk := chunk) (s := s) (r := r) (by rw [e]; exact hr)
  rw [this, e]; rfl

section stampActivity
variable (now : Nat) (chunk : List Byte) (s : State)

@[simp] theorem stampActivity_cfg : (stampActivity now chunk s).cfg = s.cfg := by unfold stampActivity; split <;> rfl
@[simp] theorem stampActivity_buf : (stampActivity now chunk s).buf = s.buf := by unfold stampActivity; split <;> rfl
@[simp] theorem stampActivity_len : (stampActivity now chunk s).len = s.len := by unfold stampActivity; split <;> rfl
@[simp] theorem stampActivity_consuming : (stampActivity now chunk s).consuming = s.consuming := by
  unfold stampActivity; split <;> rfl
@[simp] theorem stampActivity_requests : (stampActivity now chunk s).requests = s.requests := by
  unfold stampActivity; split <;> rfl
@[simp] theorem stampActivity_results : (stampActivity now chunk s).results = s.results := by
  unfold stampActivity; split <;> rfl
@[simp] theorem stampActivity_draws : (stampActivity now chunk s).draws = s.draws := by
  unfold stampActivity; split <;> rfl

end stampActivity

/-- After a CONSUME the timestamp is the clock's reading, or what it was when no byte was processed
(42_reassembler.md R133). -/
theorem stampActivity_lastActivity (now : Nat) (chunk : List Byte) (s : State) :
    (stampActivity now chunk s).lastActivity = if chunk = [] then s.lastActivity else clockReading s.cfg now := by
  unfold stampActivity; cases chunk <;> simp

/-- A non-empty chunk has written the timestamp. -/
theorem stampActivity_stamped (now : Nat) (chunk : List Byte) (s : State) :
    (stampActivity now chunk s).stamped = if chunk = [] then s.stamped else true := by
  unfold stampActivity; cases chunk <;> simp

/-- CONSUME is total under the buffer's invariant and keeps it, and every frame it emits satisfies R144. -/
theorem consumeChunk_total (now : Nat) (chunk : List Byte) {s : State} (hi : s.BufferInv) :
    ∃ r, consumeChunk now chunk s = .ok r ∧ r.state.BufferInv ∧ r.state.cfg = s.cfg ∧
      ∀ f ∈ r.frames, EmittedFrame s.cfg f := by
  have hc := stalenessCheck_inv (now := now) hi
  have hcfg := (stalenessCheck_frame now s).1
  obtain ⟨r, hr⟩ := pushBytes_total chunk hc
  exact ⟨_, consumeChunk_of_pushes hr, (pushBytes_inv hc hr).congr (by simp) (by simp) (by simp),
    by simp [(pushBytes_frame hr).cfg, hcfg], hcfg ▸ pushBytes_emits (r := r) hc hr⟩

/-- CONSUME between operations leaves a state between operations: R23 (e) holds because a buffer that is not empty was
filled by a chunk that wrote the timestamp, this one or an earlier one. -/
theorem consumeChunk_ready {now : Nat} {chunk : List Byte} {s : State} {q : RsmResult} (hi : s.Ready)
    (h : consumeChunk now chunk s = .ok q) : q.state.Ready := by
  obtain ⟨-, -, -, hst, -, -, -, hl⟩ := stalenessCheck_frame now s
  obtain ⟨r, hr, rfl⟩ := consumeChunk_cases h
  have hb := pushBytes_inv (stalenessCheck_inv (now := now) hi.toBufferInv) hr
  refine ⟨⟨hb.congr (by simp) (by simp) (by simp), fun h1 => .inl ?_⟩, rfl⟩
  cases chunk with
  | cons b bs => rfl
  | nil =>
    simp only [pushBytes_nil, Except.ok.injEq] at hr
    subst hr
    simp only [State.setConsuming_len, stampActivity_len] at h1
    show (stalenessCheck now s).1.stamped = true
    rw [hst]
    exact (hi.activity (by omega)).resolve_right (by simp [hi.idle])

/-- What CONSUME leaves alone. -/
theorem consumeChunk_frame {now : Nat} {chunk : List Byte} {s : State} {r : RsmResult}
    (h : consumeChunk now chunk s = .ok r) :
    r.state.cfg = s.cfg ∧ r.state.requests = s.requests ∧ r.state.results = s.results := by
  obtain ⟨q, hq, rfl⟩ := consumeChunk_cases h
  obtain ⟨hc, -, -, -, -, hr, hres, -⟩ := stalenessCheck_frame now s
  have hf := pushBytes_frame hq
  simp [hf.cfg, hf.requests, hf.results, hc, hr, hres]

/-! ### The receive path -/

/-- DECODE of the emitted frames never gets stuck (43_paths.md R163). -/
theorem decodeEmitted_total (cfg : Config) (fs : List (List Byte)) : ∃ r, decodeEmitted cfg fs = .ok r := by
  induction fs with
  | nil => exact ⟨_, rfl⟩
  | cons f fs ih =>
    obtain ⟨r, hr⟩ := decodeFrame_total cfg f
    obtain ⟨⟨frames, events⟩, h⟩ := ih
    cases r with
    | ok frame => exact ⟨(frame :: frames, events), by simp [decodeEmitted, hr, h]⟩
    | error e => exact ⟨(frames, .decodeDropped f e :: events), by simp [decodeEmitted, hr, h]⟩

/-- RXPATH where CONSUME succeeds: CONSUME's state, and the decoded frames and events as the result. -/
theorem receiveChunk_of_consume {now : Nat} {chunk : List Byte} {s : State} {r : RsmResult}
    (h : consumeChunk now chunk s = .ok r) :
    ∃ frames events, decodeEmitted s.cfg r.frames = .ok (frames, events) ∧
      receiveChunk now chunk s = .next (r.state.record (.received frames (r.events ++ events))) := by
  obtain ⟨⟨frames, events⟩, hd⟩ := decodeEmitted_total s.cfg r.frames
  exact ⟨frames, events, hd, by simp [receiveChunk, h, hd]⟩

/-- Everything RXPATH can do to the state: CONSUME, and one result. -/
theorem receiveChunk_next {now : Nat} {chunk : List Byte} {s t : State} (h : receiveChunk now chunk s = .next t) :
    ∃ r frames events, consumeChunk now chunk s = .ok r ∧ decodeEmitted s.cfg r.frames = .ok (frames, events) ∧
      t = r.state.record (.received frames (r.events ++ events)) := by
  cases hc : consumeChunk now chunk s with
  | error f => simp [receiveChunk, hc] at h
  | ok r =>
    obtain ⟨frames, events, hd, hr⟩ := receiveChunk_of_consume hc
    rw [hr] at h
    exact ⟨r, frames, events, rfl, hd, by simpa using h.symm⟩

end Sys2Proof.Machine
end

