-- ==== Sys2Proof/Laws/Stream.lean ====
section
/-! SUPPORT. A run of PUSHes further: what garbage and kept bytes do, the overflow, that a PUSH grows the buffer by one
byte or empties it; and DECODE of a run of emitted frames. -/

namespace Sys2Proof.Machine

/-! ### Runs of bytes -/

/-- From EMPTY a run without 0x7E is dropped byte by byte (42_reassembler.md R134). -/
theorem pushBytes_garbage : ∀ (g : List Byte) (s : State), s.len = 0 → head0 ∉ g →
    pushBytes g s = .ok ⟨s, [], g.map Event.dropGarbage⟩
  | [], _, _, _ => rfl
  | b :: g, s, h, hm => by
    simp only [List.mem_cons, not_or] at hm
    exact pushBytes_cons_ok.mpr ⟨⟨s, none, some (.dropGarbage b)⟩, _,
      by unfold pushByte; rw [if_pos ⟨h, fun e => hm.1 e.symm⟩], pushBytes_garbage g s h hm.2, rfl⟩

/-- Bytes that continue a right head, complete nothing on the way and stay within the cap are kept. -/
theorem pushBytes_keeps : ∀ (m : List Byte) (s : State) (c : List Byte), bufferContents s = .ok c →
    (c ++ m).length ≤ s.cfg.bufCap → (m ≠ [] → (c ++ m)[0]? = some head0) →
    (2 ≤ (c ++ m).length → (c ++ m)[1]? = some head1) →
    (∀ b, (c ++ m)[2]? = some b → b.toNat < 8 ∨ (c ++ m).length < b.toNat + 3) →
    ∃ t, pushBytes m s = .ok ⟨t, [], []⟩ ∧ bufferContents t = .ok (c ++ m)
  | [], s, c, hc, _, _, _, _ => ⟨s, rfl, by simpa using hc⟩
  | b :: m, s, c, hc, hcap, h0, h1, h2 => by
    obtain ⟨hcl, hcb⟩ := bufferContents_ok_iff.mp hc
    have hl : c.length = s.len := hcl
    have e : c ++ b :: m = (c ++ [b]) ++ m := by simp
    have hb : (c ++ b :: m)[c.length]? = some b := by simp
    have k := pushByte_keeps (b := b) (s := s)
      (fun h => by rw [← hl] at h; rw [h] at hb; rw [h0 (by simp)] at hb; exact (Option.some.inj hb).symm)
      (fun h => by rw [← hl] at h; rw [h] at hb; rw [h1 (by simp; omega)] at hb; exact (Option.some.inj hb).symm)
      (by simp at hcap; omega) (fun h10 => by
        simp only [checkFloor, State.appended_len] at h10
        have hlt : 2 < c.length := by omega
        obtain ⟨v, hv⟩ : ∃ v, (c : List Byte)[2]? = some v := ⟨_, List.getElem?_eq_getElem hlt⟩
        refine ⟨v, holds_appended.mpr (by rw [if_neg (by omega)]; exact hcb 2 v hv), ?_⟩
        have := h2 v (by rw [List.getElem?_append_left (by omega)]; exact hv)
        simp at this
        simp only [expectedTotal_eq, State.appended_len]
        omega)
    obtain ⟨t, ht, hbt⟩ := pushBytes_keeps m (s.appended b) (c ++ [b]) (bufferContents_appended hc)
      (by rw [← e]; exact hcap) (fun _ => by rw [← e]; exact h0 (by simp)) (by rw [← e]; exact h1)
      (by rw [← e]; exact h2)
    exact ⟨t, pushBytes_cons_ok.mpr ⟨_, _, k, ht, rfl⟩, by rw [e]; exact hbt⟩

/-- The byte that brings the buffer over the cap without completing a frame discards it all (42_reassembler.md R139). -/
theorem pushByte_overflows {s : State} {b : Byte} (h0 : s.len = 0 → b = head0) (h1 : s.len = 1 → b = head1)
    (hc : s.len = s.cfg.bufCap) (hn : NotComplete (s.appended b)) :
    pushByte b s = .ok ⟨(s.appended b).setLen 0, none, some (.dropOverflow (s.len + 1))⟩ := by
  rw [pushByte_append h0 h1 (by omega)]
  have hct : capTest (s.appended b) = ⟨(s.appended b).setLen 0, none, some (.dropOverflow (s.len + 1))⟩ := by
    unfold capTest; rw [if_pos (by simp; omega)]; rfl
  unfold completionTest
  split
  · rename_i h10
    obtain ⟨l, hl, hne⟩ := hn h10
    rw [readByte_ok_iff.mpr ⟨by simp only [checkFloor] at h10; omega, hl⟩]
    dsimp only; rw [if_neg hne, hct]
  · rw [hct]

/-- A PUSH empties the buffer or makes it one byte longer. -/
theorem pushByte_len {b : Byte} {s : State} {p : PushResult} (h : pushByte b s = .ok p) :
    p.state.len = 0 ∨ p.state.len = s.len + 1 := by
  rcases pushByte_cases h with ⟨h0, -, rfl⟩ | ⟨-, -, rfl⟩ | ⟨-, -, -, hc⟩
  · exact .inl h0
  · exact .inl rfl
  · rcases completionTest_cases hc with ⟨l, f, -, -, -, -, rfl⟩ | ⟨-, -, rfl⟩ | ⟨-, -, rfl⟩
    · exact .inl rfl
    · exact .inl rfl
    · exact .inr rfl

/-! ### The receive path -/

/-- DECODE of two runs of emitted frames is DECODE of the one and then of the other. -/
theorem decodeEmitted_append (cfg : Config) {a b : List (List Byte)} {f g : List Frame} {d e : List Event}
    (ha : decodeEmitted cfg a = .ok (f, d)) (hb : decodeEmitted cfg b = .ok (g, e)) :
    decodeEmitted cfg (a ++ b) = .ok (f ++ g, d ++ e) := by
  induction a generalizing f d with
  | nil => simp [decodeEmitted] at ha; obtain ⟨rfl, rfl⟩ := ha; simpa using hb
  | cons x a ih =>
    obtain ⟨r, hr⟩ := decodeFrame_total cfg x
    obtain ⟨⟨f', d'⟩, h'⟩ := decodeEmitted_total cfg a
    have := ih h'
    simp only [decodeEmitted, hr, h', List.cons_append, this] at ha ⊢
    cases r <;> simp at ha ⊢ <;> (obtain ⟨rfl, rfl⟩ := ha; simp)

end Sys2Proof.Machine
end

