-- ==== Sys2Proof/Laws/Below.lean ====
section
/-! SUPPORT. Bytes of the buffer at or above `len` are not read (10_state.md R21): two states that differ only in them
do the same. -/

namespace Sys2Proof.Machine

/-- Two states that differ at most in bytes of the buffer at or above `len`. -/
structure SameBelow (s u : State) : Prop where
  cfg : u.cfg = s.cfg
  len : u.len = s.len
  lastActivity : u.lastActivity = s.lastActivity
  stamped : u.stamped = s.stamped
  consuming : u.consuming = s.consuming
  requests : u.requests = s.requests
  results : u.results = s.results
  draws : u.draws = s.draws
  read : ∀ k, k < s.len → Memory.read u.buf k = Memory.read s.buf k
/-- They read the same buffer contents. -/
theorem SameBelow.contents {s u : State} (h : SameBelow s u) : bufferContents u = bufferContents s := by
  unfold bufferContents
  rw [h.len]
  suffices ∀ n i, readBytes u i n = readBytes s i n from this _ _
  intro n
  induction n with
  | zero => intro i; rfl
  | succ n ih =>
    intro i
    have : readByte u i = readByte s i := by
      unfold readByte; rw [h.len]; split
      · rw [h.read i ‹_›]
      · rfl
    simp only [readBytes, ih, this]
/-- A PUSH does the same from both and leaves such states. -/
theorem sameBelow_pushByte {s u : State} (h : SameBelow s u) {b p} (hp : pushByte b s = .ok p) :
    ∃ v, pushByte b u = .ok ⟨v, p.frame, p.event⟩ ∧ SameBelow p.state v := by
  have setl : ∀ {s u : State}, SameBelow s u → ∀ n, n ≤ s.len → SameBelow (s.setLen n) (u.setLen n) :=
    fun h n hn => ⟨h.cfg, rfl, h.lastActivity, h.stamped, h.consuming, h.requests, h.results, h.draws,
      fun k hk => h.read k (by simp at hk; omega)⟩
  have happ : SameBelow (s.appended b) (u.appended b) :=
    ⟨h.cfg, by simp [h.len], h.lastActivity, h.stamped, h.consuming, h.requests, h.results, h.draws, fun k hk => by
    simp only [State.appended_buf, Memory.read_write, h.len]
    split
    · rfl
    · exact h.read k (by simp at hk; omega)⟩
  unfold pushByte at hp ⊢
  rw [h.len]
  split at hp
  · cases hp; rw [if_pos ‹_›]; exact ⟨_, rfl, h⟩
  · rw [if_neg ‹_›]
    split at hp
    · cases hp; rw [if_pos ‹_›]; exact ⟨_, rfl, setl h 0 (by omega)⟩
    · rw [if_neg ‹_›]
      split at hp
      · cases hp
      · rename_i t ht
        obtain ⟨hc, rfl⟩ := appendByte_ok_iff.mp ht
        rw [appendByte_ok_iff.mpr ⟨by rw [h.len, h.cfg]; exact hc, rfl⟩]
        dsimp only
        have hcap : ∀ p, capTest (s.appended b) = p →
            ∃ v, capTest (u.appended b) = ⟨v, p.frame, p.event⟩ ∧ SameBelow p.state v := by
          intro p hp
          unfold capTest at hp ⊢
          rw [happ.cfg, happ.len]
          split at hp
          · rw [if_pos ‹_›]; subst hp; exact ⟨_, rfl, setl happ 0 (by omega)⟩
          · rw [if_neg ‹_›]; subst hp; exact ⟨_, rfl, happ⟩
        unfold completionTest at hp ⊢
        rw [happ.len]
        split at hp
        · rw [if_pos ‹_›]
          have h10 : 10 < (s.appended b).len := ‹_›
          have : readByte (u.appended b) 2 = readByte (s.appended b) 2 := by
            unfold readByte; rw [happ.len]; split
            · rw [happ.read 2 ‹_›]
            · rfl
          rw [this]
          split at hp
          · cases hp
          · rename_i l hl
            split at hp
            · rw [if_pos ‹_›]
              unfold emitFrame at hp ⊢
              rw [happ.contents]
              split at hp
              · cases hp
              · cases hp; rename_i f hf; exact ⟨_, rfl, setl happ 0 (by omega)⟩
            · rw [if_neg ‹_›]; simp only [Except.ok.injEq] at hp
              obtain ⟨v, hv, hr⟩ := hcap _ hp
              exact ⟨v, by rw [hv], hr⟩
        · rw [if_neg ‹_›]; simp only [Except.ok.injEq] at hp
          obtain ⟨v, hv, hr⟩ := hcap _ hp
          exact ⟨v, by rw [hv], hr⟩
/-- A run of PUSHes does the same from both. -/
theorem sameBelow_pushBytes : ∀ (l : List Byte) {s u : State}, SameBelow s u → ∀ {r}, pushBytes l s = .ok r →
    ∃ v, pushBytes l u = .ok ⟨v, r.frames, r.events⟩ ∧ SameBelow r.state v
  | [], s, u, h, r, hr => by simp only [pushBytes_nil, Except.ok.injEq] at hr; subst hr; exact ⟨u, rfl, h⟩
  | b :: bs, s, u, h, r, hr => by
    obtain ⟨p, q, hp, hq, rfl⟩ := pushBytes_cons_ok.mp hr
    obtain ⟨v, hv, hrel⟩ := sameBelow_pushByte h hp
    obtain ⟨w, hw, hrel'⟩ := sameBelow_pushBytes bs hrel hq
    exact ⟨w, pushBytes_cons_ok.mpr ⟨_, _, hv, hw, rfl⟩, hrel'⟩
/-- CONSUME does the same from both. -/
theorem sameBelow_consumeChunk {now chunk} {s u : State} (h : SameBelow s u) {r} (hr : consumeChunk now chunk s = .ok r) :
    ∃ v, consumeChunk now chunk u = .ok ⟨v, r.frames, r.events⟩ ∧ SameBelow r.state v := by
  have hs : ∃ x, stalenessCheck now u = (x, (stalenessCheck now s).2) ∧ SameBelow (stalenessCheck now s).1 x := by
    unfold stalenessCheck
    have h1 : clockInOrder now u = clockInOrder now s := by simp [clockInOrder, h.cfg, h.lastActivity]
    have h2 : isStale now u = isStale now s := by unfold isStale; rw [h1, h.cfg, h.lastActivity, h.draws]
    rw [h.len, h1, h2]
    split
    · exact ⟨u, rfl, h⟩
    · dsimp only
      have ha : SameBelow s.advanceDraws u.advanceDraws :=
        ⟨h.cfg, h.len, h.lastActivity, h.stamped, h.consuming, h.requests, h.results, by simp [h.draws], h.read⟩
      split <;> split <;> first
        | exact ⟨_, rfl, h⟩
        | exact ⟨_, rfl, ha⟩
        | exact ⟨_, rfl, ⟨h.cfg, rfl, h.lastActivity, h.stamped, h.consuming, h.requests, h.results,
            h.draws, fun k hk => by simp at hk⟩⟩
        | exact ⟨_, rfl, ⟨h.cfg, rfl, h.lastActivity, h.stamped, h.consuming, h.requests, h.results,
            by simp [h.draws], fun k hk => by simp at hk⟩⟩
  obtain ⟨x, hx, hrel⟩ := hs
  obtain ⟨q, hq, rfl⟩ := consumeChunk_cases hr
  obtain ⟨w, hw, hr2⟩ := sameBelow_pushBytes chunk hrel hq
  have e := consumeChunk_of_pushes (now := now) (s := u) (chunk := chunk) (r := ⟨w, q.frames, q.events⟩)
    (by rw [hx]; exact hw)
  rw [hx] at e
  refine ⟨_, e, ?_⟩
  unfold stampActivity
  split
  · exact ⟨hr2.cfg, hr2.len, hr2.lastActivity, hr2.stamped, rfl, hr2.requests, hr2.results, hr2.draws, hr2.read⟩
  · exact ⟨hr2.cfg, hr2.len, by simp [hr2.cfg], rfl, rfl, hr2.requests, hr2.results, hr2.draws, hr2.read⟩

end Sys2Proof.Machine
end

