-- ==== Sys2Proof/Laws/Match.lean ====
section
/-! SUPPORT. What a mask-and-match test says byte by byte (30_encoding.md R70). -/

namespace Sys2Proof

/-- A word that matches has, at every position of the mask, a byte that matches there. -/
theorem maskMatch_get {m p w : List Byte} (h : maskMatch m p w = true) {i : Nat} {a b : Byte}
    (hm : m[i]? = some a) (hp : p[i]? = some b) : ∃ c, w[i]? = some c ∧ c &&& a = b := by
  induction m generalizing p w i with
  | nil => simp at hm
  | cons x m ih =>
    cases p with
    | nil => simp at hp
    | cons y p =>
      cases w with
      | nil => simp [maskMatch] at h
      | cons z w =>
        simp only [maskMatch, Bool.and_eq_true, beq_iff_eq] at h
        cases i with
        | zero => simp at hm hp ⊢; rw [← hm, ← hp]; exact h.1
        | succ i => simp only [List.getElem?_cons_succ] at hm hp ⊢; exact ih h.2 hm hp

/-- Where the mask is all ones the word has the pattern's byte. -/
theorem maskMatch_ones {m p w : List Byte} (h : maskMatch m p w = true) {i : Nat} {b : Byte}
    (hm : m[i]? = some 0xFF#8) (hp : p[i]? = some b) : w[i]? = some b := by
  obtain ⟨c, hc, he⟩ := maskMatch_get h hm hp
  have ones : c &&& 0xFF#8 = c := by
    have : (0xFF#8 : Byte) = BitVec.allOnes 8 := rfl
    rw [this, BitVec.and_allOnes]
  rw [hc, ← he, ones]

/-- A word that matches a FRAME0 row on the receive side carries the row's command at its offset, 7. -/
theorem frame0_command {cc : Byte} {w : List Byte}
    (h : maskMatch frame0DecodeMask (frame0DecodeMatch cc) w = true) :
    byteAt w Layout.layout0.commandAt = some cc := maskMatch_ones h rfl rfl

/-- A word that matches FRAME_LAYOUT1 on the receive side carries the command at its offset, 8. -/
theorem frame1_command {cc : Byte} {w : List Byte}
    (h : maskMatch frame1DecodeMask (frame1DecodeMatch cc) w = true) :
    byteAt w Layout.layout1.commandAt = some cc := maskMatch_ones h rfl rfl

end Sys2Proof
end

