-- ==== Sys2Proof/Laws/PerInstr.lean ====
section
/-! SUPPORT. The family TableMatch, one lemma per operation: the word the encoder gives a well-formed operation has the
format of its row in spec/opcode_table.json and matches the row's mask and match. -/

namespace Sys2Proof.Laws.TableMatch

/-- The format of the operation's row. -/
def rowFormat : Instr → Format
  | .reset => .op
  | .crc16 _ _ _ => .op
  | .encode _ _ _ _ => .op
  | .decode _ => .op
  | .consume _ _ _ => .op
  | .push _ => .byte
  | .opselReserved _ => .op
  | .tagFeedback _ => .frame0
  | .readTag _ => .frame0
  | .readBlock _ => .frame0
  | .writeBlock _ => .frame0
  | .frameAny _ _ => .frame0
  | .frameLayout1 _ _ => .frame1
  | .rxFrame _ _ => .frameRx

/-- A frame row's word: the mask and match of a frame ENC builds, or of a frame the receive side is handed. -/
def frameMatches (mask pattern decodeMask decodePattern : List Byte) (use : FrameUse) (word : List Byte) : Prop :=
  match use with
  | .build _ _ _ => maskMatch mask pattern word = true
  | .read _ => maskMatch decodeMask decodePattern word = true

/-- The word of an operation matches its row. -/
def rowMatches (i : Instr) (word : List Byte) : Prop :=
  match i with
  | .reset => word = [0x00#8]
  | .crc16 _ _ _ => word = [0x01#8]
  | .encode _ _ _ _ => word = [0x02#8]
  | .decode _ => word = [0x03#8]
  | .consume _ _ _ => word = [0x04#8]
  | .push b => word = [b]
  | .opselReserved _ => ∃ b : Byte, word = [b] ∧ 5 ≤ b.toNat ∧ b.toNat ≤ 15
  | .tagFeedback use => frameMatches frame0Mask (frame0Match 0x15#8) frame0DecodeMask (frame0DecodeMatch 0x15#8) use word
  | .readTag use => frameMatches frame0Mask (frame0Match 0x16#8) frame0DecodeMask (frame0DecodeMatch 0x16#8) use word
  | .readBlock use => frameMatches frame0Mask (frame0Match 0x70#8) frame0DecodeMask (frame0DecodeMatch 0x70#8) use word
  | .writeBlock use => frameMatches frame0Mask (frame0Match 0x71#8) frame0DecodeMask (frame0DecodeMatch 0x71#8) use word
  | .frameAny cc use => frameMatches frame0Mask (frame0Match cc) frame0DecodeMask (frame0DecodeMatch cc) use word
  | .frameLayout1 cc use => frameMatches frame1Mask (frame1Match cc) frame1DecodeMask (frame1DecodeMatch cc) use word
  | .rxFrame _ _ => maskMatch rxMask rxMatch word = true

/-- The family's statement. -/
def Statement (i : Instr) : Prop :=
  i.wf = true → (encodeInstr i).format = rowFormat i ∧ rowMatches i (encodeInstr i).word

/-- Masking by ones keeps a byte. -/
theorem mask_ones (b : Byte) : b &&& 0xFF#8 = b := by
  have : (0xFF#8 : Byte) = BitVec.allOnes 8 := rfl
  rw [this, BitVec.and_allOnes]

/-- The match word of a FRAME0 row matches itself. -/
theorem frame0Match_self (cc : Byte) : maskMatch frame0Mask (frame0Match cc) (frame0Match cc) = true := by
  simp [maskMatch, frame0Mask, frame0Match, mask_ones]

/-- The match word of FRAME_LAYOUT1 matches itself. -/
theorem frame1Match_self (cc : Byte) : maskMatch frame1Mask (frame1Match cc) (frame1Match cc) = true := by
  simp [maskMatch, frame1Mask, frame1Match, mask_ones]

/-- A FRAME0 row matches in both of its uses. -/
theorem frame0_matches (cc : Byte) (use : FrameUse) (h : use.fits frame0DecodeMask (frame0DecodeMatch cc) = true) :
    frameMatches frame0Mask (frame0Match cc) frame0DecodeMask (frame0DecodeMatch cc) use
      (frameRequest .frame0 (frame0Match cc) use).word := by
  cases use with
  | build dest p ps => exact frame0Match_self cc
  | read bytes => exact h

theorem frameRequest_format (f : Format) (p : List Byte) (use : FrameUse) : (frameRequest f p use).format = f := by
  cases use <;> rfl

theorem reset : Statement .reset := fun _ => ⟨rfl, rfl⟩

theorem crc16 (bytes : List Byte) (start stop : Nat) : Statement (.crc16 bytes start stop) := fun _ => ⟨rfl, rfl⟩

theorem encode (dest : TxDest) (p : List Byte) (c : Byte) (ps : List Byte) : Statement (.encode dest p c ps) :=
  fun _ => ⟨rfl, rfl⟩

theorem decode (bytes : List Byte) : Statement (.decode bytes) := fun _ => ⟨rfl, rfl⟩

theorem consume (dest : RxDest) (now : Nat) (chunk : List Byte) : Statement (.consume dest now chunk) :=
  fun _ => ⟨rfl, rfl⟩

theorem push (b : Byte) : Statement (.push b) := fun _ => ⟨rfl, rfl⟩

theorem opselReserved (sel : BitVec 4) : Statement (.opselReserved sel) := fun h => by
  have h5 : 5 ≤ sel.toNat := of_decide_eq_true (p := 5 ≤ sel.toNat) h
  have := sel.isLt
  have e : (BitVec.ofNat 8 sel.toNat).toNat = sel.toNat := by rw [BitVec.toNat_ofNat, Nat.mod_eq_of_lt (by omega)]
  exact ⟨rfl, BitVec.ofNat 8 sel.toNat, rfl, by omega, by omega⟩

theorem tagFeedback (use : FrameUse) : Statement (.tagFeedback use) := fun h =>
  ⟨frameRequest_format _ _ _, frame0_matches _ use h⟩

theorem readTag (use : FrameUse) : Statement (.readTag use) := fun h =>
  ⟨frameRequest_format _ _ _, frame0_matches _ use h⟩

theorem readBlock (use : FrameUse) : Statement (.readBlock use) := fun h =>
  ⟨frameRequest_format _ _ _, frame0_matches _ use h⟩

theorem writeBlock (use : FrameUse) : Statement (.writeBlock use) := fun h =>
  ⟨frameRequest_format _ _ _, frame0_matches _ use h⟩

theorem frameAny (cc : Byte) (use : FrameUse) : Statement (.frameAny cc use) := fun h =>
  ⟨frameRequest_format _ _ _, frame0_matches cc use (by simp only [Instr.wf, Bool.and_eq_true] at h; exact h.2)⟩

theorem frameLayout1 (cc : Byte) (use : FrameUse) : Statement (.frameLayout1 cc use) := fun h =>
  ⟨frameRequest_format _ _ _, by
    cases use with
    | build dest p ps => exact frame1Match_self cc
    | read bytes => exact h⟩

theorem rxFrame (now : Nat) (frame : List Byte) : Statement (.rxFrame now frame) := fun h => ⟨rfl, h⟩

end Sys2Proof.Laws.TableMatch
end

