-- ==== Sys2Proof/Laws/Step.lean ====
section
/-! SUPPORT. What a step can do, said once (`step_next_cases`), what the operations of the reassembler answer where
their parts succeed, and which operations leave the block's state alone. -/

namespace Sys2Proof.Machine

/-- Outside a CONSUME no operation overlaps one. -/
@[simp] theorem overlaps_idle {i : Instr} {s : State} (h : s.consuming = false) : overlaps i s = false := by
  simp [overlaps, h]

/-- A PUSH never overlaps the CONSUME it is a step of. -/
@[simp] theorem overlaps_push (b : Byte) (s : State) : overlaps (.push b) s = false := by
  simp [overlaps, isConsumeStep]

/-- Only a PUSH is a step of a CONSUME. -/
theorem isConsumeStep_iff {i : Instr} : isConsumeStep i = true ↔ ∃ b, i = .push b := by
  cases i <;> simp [isConsumeStep]

/-- Inside a CONSUME everything but a PUSH overlaps it. -/
theorem overlaps_of_consuming {i : Instr} {s : State} (h : s.consuming = true) (hi : ∀ b, i ≠ .push b) :
    overlaps i s = true := by
  have : isConsumeStep i ≠ true := fun e => by
    obtain ⟨b, hb⟩ := isConsumeStep_iff.mp e
    exact hi b hb
  simpa [overlaps, h] using this

/-- Everything a step that answers a next state can have done: nothing, or the operation of the first request, which
overlaps no CONSUME. -/
theorem step_next_cases {s t : State} (h : step s = .next t) :
    (s.requests = [] ∧ t = s) ∨
    ∃ r rest i, s.requests = r :: rest ∧ decodeRequest r = .ok i ∧ (s.consuming = false ∨ ∃ b, i = .push b) ∧
      exec i (s.setRequests rest) = .next t := by
  unfold step at h
  split at h
  · cases h; exact .inl ⟨‹_›, rfl⟩
  · rename_i r rest hr
    split at h
    · rename_i i hi
      split at h
      · cases h
      · rename_i ho
        refine .inr ⟨r, rest, i, hr, hi, ?_, h⟩
        by_cases hc : s.consuming = true
        · by_contra hn
          rw [not_or] at hn
          exact ho (overlaps_of_consuming hc fun b hb => hn.2 ⟨b, hb⟩)
        · exact .inl (by simpa using hc)
    · cases h

/-- A step whose first request decodes to an operation that overlaps no CONSUME runs it. -/
theorem step_of_decoded {s : State} {r : Request} {rest : List Request} {i : Instr} (hr : s.requests = r :: rest)
    (hi : decodeRequest r = .ok i) (ho : overlaps i s = false) : step s = exec i (s.setRequests rest) := by
  unfold step; rw [hr]; simp [hi, ho]

/-- PUSH inside a CONSUME. -/
theorem execPush_of_consuming {b : Byte} {s : State} {p : PushResult} (hc : s.consuming = true)
    (hp : pushByte b s = .ok p) : execPush b s = .next (p.state.record (.pushed p.frame p.event)) := by
  simp [execPush, hc, hp]

/-- Everything PUSH can do: it ran inside a CONSUME. -/
theorem execPush_next {b : Byte} {s t : State} (h : execPush b s = .next t) :
    s.consuming = true ∧ ∃ p, pushByte b s = .ok p ∧ t = p.state.record (.pushed p.frame p.event) := by
  unfold execPush at h
  split at h
  · refine ⟨‹_›, ?_⟩
    split at h
    · cases h
    · exact ⟨_, ‹_›, by simpa using h.symm⟩
  · cases h

/-- CONSUME where its parts succeed. -/
theorem execConsume_caller {now : Nat} {chunk : List Byte} {s : State} {r : RsmResult}
    (h : consumeChunk now chunk s = .ok r) :
    execConsume .caller now chunk s = .next (r.state.record (.consumed r.frames r.events)) := by
  simp [execConsume, h]

/-- Everything CONSUME and RXPATH can do to the state: the parts of CONSUME, and one result. -/
theorem execConsume_next {dest : RxDest} {now : Nat} {chunk : List Byte} {s t : State}
    (h : execConsume dest now chunk s = .next t) :
    ∃ r x, consumeChunk now chunk s = .ok r ∧ t = r.state.record x ∧ ∀ e, x ≠ .error e := by
  cases dest with
  | caller =>
    simp only [execConsume] at h
    split at h
    · cases h
    · rename_i r hr
      exact ⟨r, _, hr, by simpa using h.symm, by simp⟩
  | decoder =>
    obtain ⟨r, frames, events, hr, -, rfl⟩ := receiveChunk_next h
    exact ⟨r, _, hr, rfl, by simp⟩

end Sys2Proof.Machine
end

