-- ==== Sys2Proof/Tests/Slice0.lean ====
section
/-! SUPPORT. Tests. The expected results are those of spec/95_test_vectors.md (the vector's number stands in each
docstring) or are written out from the encodings of spec/30_encoding.md. After them, one witness for each statement of
Certificates/Slice0/Obligations.lean that has hypotheses: concrete states and operands that meet them together. -/

-- One theorem after another: the kernel evaluations side by side would reserve more memory than the check allows.
set_option Elab.async false

namespace Sys2Proof.Tests

open Sys2Proof Sys2Proof.Machine Sys2Proof.Spec

/-! ### Builders -/

/-- Bytes from numbers. -/
def b (l : List Nat) : List Byte := l.map (BitVec.ofNat 8)

/-- F0 of spec/95_test_vectors.md, the frame of V15. -/
def f0 : List Byte := b [0x7E, 0x55, 0x08, 0x00, 0x00, 0x01, 0x00, 0x16, 0x00, 0x66, 0x8F]

/-- F1, the frame of V17. -/
def f1 : List Byte := b [0x7E, 0x55, 0x09, 0x00, 0x00, 0x01, 0x00, 0x70, 0x00, 0x04, 0xC8, 0xE2]

/-- The layout-1 frame of V27. -/
def f27 : List Byte := b [0x7E, 0x55, 0x0A, 0x00, 0x00, 0x01, 0x00, 0x00, 0x16, 0x00, 0xAA, 0xE0, 0x08]

/-- The reset state with another capacity. -/
def withCap (n : Nat) : State := { State.reset with cfg := { hardwareConfig with bufCap := n } }

/-- The reset state in layout 1 with SIGN_VALUE = 0x00, as V26 and V27 have it. -/
def inLayout1 : State := { State.reset with cfg := { hardwareConfig with layout := .layout1, signValue := 0x00#8 } }

/-- The reset state with VERIFY_CRC = 1. -/
def verifying : State := { State.reset with cfg := { hardwareConfig with verifyCrc := true } }

/-- The entries of a buffer that holds the bytes from an address on. -/
def cells : Nat → List Byte → Memory
  | _, [] => []
  | a, v :: l => (a, v) :: cells (a + 1) l

/-- A state whose buffer holds the bytes, with the last activity written, at 0. -/
def filled (s : State) (l : List Byte) : State := { s with buf := cells 0 l, len := l.length, stamped := true }

/-- The same state mid-way through a CONSUME. -/
def during (s : State) : State := s.setConsuming true

/-- The results after an operation, none after a stop. -/
def results : Host.Outcome State Fault Refusal → List Result
  | .next s => s.results
  | _ => []

/-- The results of two operations, one after the other. -/
def results2 (i j : Instr) (s : State) : List Result :=
  match exec i s with
  | .next t => results (exec j t)
  | _ => []

/-- `len` and the last activity after an operation. -/
def lenAndTime : Host.Outcome State Fault Refusal → Option (Nat × Nat)
  | .next s => some (s.len, s.lastActivity)
  | _ => none

/-- The commands and parameters of the frames a receive path hands up, and its events. -/
def summary : Result → List (Byte × List Byte) × List Event
  | .received fs es => (fs.map fun f => (f.command, f.parameters), es)
  | _ => ([], [])

/-- The garbage events of a run of bytes. -/
def garbage (l : List Byte) : List Event := l.map Event.dropGarbage

/-! ### Well-formedness refuses -/

theorem test_wf_reserved_below_five : (Instr.opselReserved 4#4).wf = false := by decide
theorem test_wf_tagFeedback_other_command : (Instr.tagFeedback (.read f0)).wf = false := by decide
theorem test_wf_readTag_wrong_marker :
    (Instr.readTag (.read (b [0x7E, 0x54, 0x08, 0x00, 0x00, 0x01, 0x00, 0x16, 0x00]))).wf = false := by decide
theorem test_wf_readBlock_too_short : (Instr.readBlock (.read (f1.take 8))).wf = false := by decide
theorem test_wf_writeBlock_other_command : (Instr.writeBlock (.read f1)).wf = false := by decide
theorem test_wf_frameAny_named_command : (Instr.frameAny 0x16#8 (.build .caller [] [])).wf = false := by decide
theorem test_wf_frameAny_other_command : (Instr.frameAny 0x17#8 (.read f0)).wf = false := by decide
theorem test_wf_frameLayout1_layout0_frame : (Instr.frameLayout1 0x16#8 (.read f0)).wf = false := by decide
theorem test_wf_rxFrame_without_marker : (Instr.rxFrame 0 (b [0x55, 0x7E, 0x08])).wf = false := by decide

/-! ### Decoding, the words written out from spec/30_encoding.md R61, R62, R70, R77 -/

theorem test_decode_reset : decodeRequest ⟨.op, [0b00000000#8], []⟩ = .ok .reset := by decide
theorem test_decode_crc16 : decodeRequest ⟨.op, [0b00000001#8], [.seq f0, .num 2, .num 9]⟩ = .ok (.crc16 f0 2 9) := by
  decide
theorem test_decode_encode :
    decodeRequest ⟨.op, [0b00000010#8], [.seq [0x00#8], .byte 0x16#8, .seq [0xAA#8]]⟩
      = .ok (.encode .caller [0x00#8] 0x16#8 [0xAA#8]) := by decide
theorem test_decode_txpath :
    decodeRequest ⟨.op, [0b00000010#8], [.toTransport (-1), .seq [], .byte 0x16#8, .seq [0xAA#8]]⟩
      = .ok (.encode (.transport (-1)) [] 0x16#8 [0xAA#8]) := by decide
theorem test_decode_decode : decodeRequest ⟨.op, [0b00000011#8], [.seq f0]⟩ = .ok (.decode f0) := by decide
theorem test_decode_consume :
    decodeRequest ⟨.op, [0b00000100#8], [.num 7, .seq f0]⟩ = .ok (.consume .caller 7 f0) := by decide
theorem test_decode_rxpath :
    decodeRequest ⟨.op, [0b00000100#8], [.toDecoder, .num 7, .seq f0]⟩ = .ok (.consume .decoder 7 f0) := by decide
theorem test_decode_push : decodeRequest ⟨.byte, [0b01111110#8], []⟩ = .ok (.push 0x7E#8) := by decide
theorem test_decode_reserved :
    decodeRequest ⟨.op, [0b00000101#8], []⟩ = .ok (.opselReserved 5#4) ∧
      decodeRequest ⟨.op, [0b00001111#8], []⟩ = .ok (.opselReserved 15#4) := by decide
theorem test_decode_tagFeedback :
    decodeRequest ⟨.frame0, [0b01111110#8, 0b01010101#8, 0b00001010#8, 0b00000000#8, 0b00000000#8, 0b00000001#8,
      0b00000000#8, 0b00010101#8, 0b00000000#8], [.seq [], .seq [0x00#8, 0x00#8]]⟩
      = .ok (.tagFeedback (.build .caller [] [0x00#8, 0x00#8])) := by decide
theorem test_decode_readTag_received : decodeRequest ⟨.frame0, f0, []⟩ = .ok (.readTag (.read f0)) := by decide
theorem test_decode_readBlock :
    decodeRequest ⟨.frame0, [0b01111110#8, 0b01010101#8, 0b00001001#8, 0b00000000#8, 0b00000000#8, 0b00000001#8,
      0b00000000#8, 0b01110000#8, 0b00000000#8], [.seq [], .seq [0x04#8]]⟩
      = .ok (.readBlock (.build .caller [] [0x04#8])) := by decide
theorem test_decode_writeBlock :
    decodeRequest ⟨.frame0, [0b01111110#8, 0b01010101#8, 0b00001000#8, 0b00000000#8, 0b00000000#8, 0b00000001#8,
      0b00000000#8, 0b01110001#8, 0b00000000#8], [.toTransport 1, .seq [], .seq []]⟩
      = .ok (.writeBlock (.build (.transport 1) [] [])) := by decide
theorem test_decode_frameAny :
    decodeRequest ⟨.frame0, [0b01111110#8, 0b01010101#8, 0b00001000#8, 0b00000000#8, 0b00000000#8, 0b00000001#8,
      0b00000000#8, 0b11111111#8, 0b00000000#8], [.seq [], .seq []]⟩
      = .ok (.frameAny 0xFF#8 (.build .caller [] [])) := by decide
theorem test_decode_frameLayout1 :
    decodeRequest ⟨.frame1, [0b01111110#8, 0b01010101#8, 0b00001001#8, 0b00000000#8, 0b00000000#8, 0b00000001#8,
      0b00000000#8, 0b10101010#8, 0b00010110#8, 0b00000000#8], [.seq [], .seq []]⟩
      = .ok (.frameLayout1 0x16#8 (.build .caller [] [])) := by decide
theorem test_decode_rxFrame :
    decodeRequest ⟨.frameRx, [0b01111110#8, 0b01010101#8, 0b00001000#8], [.num 0]⟩
      = .ok (.rxFrame 0 (b [0x7E, 0x55, 0x08])) := by decide
theorem test_decode_table_words :
    decodeTableWord 72 0x7E5508000001001600 = some (.readTag (.read (f0.take 9 ++ b [0x00, 0x00]))) ∧
      decodeTableWord 24 0x7E5500 = some (.rxFrame 0 (b [0x7E, 0x55, 0x00])) ∧
      decodeTableWord 8 0x7E = some (.push 0x7E#8) := by decide +kernel
theorem test_decode_refuses :
    decodeRequest ⟨.op, [0x10#8], []⟩ = .error .selectorSize ∧
      decodeRequest ⟨.op, [0x00#8, 0x00#8], []⟩ = .error .wordSize ∧
      decodeRequest ⟨.op, [0x01#8], []⟩ = .error .operandForm ∧
      decodeRequest ⟨.frame0, b [0x7E, 0x55, 0x08, 0x00, 0x00, 0x00, 0x00, 0x16, 0x00], [.seq [], .seq []]⟩
        = .error .patternMismatch ∧
      decodeRequest ⟨.frameRx, b [0x7E, 0x56, 0x08], [.num 0]⟩ = .error .patternMismatch := by decide

/-! ### A step from reset -/

theorem test_step_runs_presented_words :
    results (step (State.reset.withFetchWord 8 0)) = [.done] ∧
      results (step (State.reset.withFetchWord 8 1)) = [.crc 0x0000#16] ∧
      results (step (State.reset.withFetchWord 8 2)) =
        [.encoded (b [0x7E, 0x55, 0x08, 0x00, 0x00, 0x01, 0x00, 0x00, 0x00, 0x27, 0x4E])] ∧
      results (step (State.reset.withFetchWord 8 3)) = [.error (.malformedFrame .tooShort [])] ∧
      results (step (State.reset.withFetchWord 8 4)) = [.consumed [] []] := by decide +kernel
theorem test_step_runs_received_frame :
    results (step (State.reset.withFetchWord 24 0x7E5500)) = [.received [] []] ∧
      lenAndTime (step (State.reset.withFetchWord 24 0x7E5500)) = some (3, 0) := by decide +kernel

/-! ### RESET -/

/-- R200, R203: a partial frame is lost without an event; the timestamp is not written. -/
theorem test_reset_clears_len :
    lenAndTime (exec .reset { filled State.reset (f0.take 5) with lastActivity := 77 }) = some (0, 77) := by
  decide +kernel

/-! ### CRC16 -/

/-- V3, V10, V11. -/
theorem test_crc16_values :
    results (exec (.crc16 [0x01#8] 0 1) State.reset) = [.crc 0xE1F1#16] ∧
      results (exec (.crc16 (b [0x31, 0x32, 0x33, 0x34, 0x35, 0x36, 0x37, 0x38, 0x39]) 0 9) State.reset)
        = [.crc 0x906E#16] ∧
      results (exec (.crc16 (f0.take 9) 2 9) State.reset) = [.crc 0x8F66#16] := by decide +kernel
/-- V3: the register after each step. -/
theorem test_crc16_register :
    [1, 2, 3, 4, 5, 6, 7, 8].map (fun n => crcSteps n 0xFFFE#16)
      = [0x7FFF#16, 0xBBF7#16, 0xD9F3#16, 0xE8F1#16, 0xF070#16, 0x7838#16, 0x3C1C#16, 0x1E0E#16] := by decide +kernel

/-! ### ENCODE -/

/-- V16, V18. -/
theorem test_encode_frames :
    results (exec (.encode .caller [0x00#8] 0x16#8 []) State.reset) = [.encoded (0x00#8 :: f0)] ∧
      results (exec (.encode .caller [] 0x71#8 (b [0x01, 0xDE, 0xAD, 0xBE, 0xEF])) State.reset)
        = [.encoded (b [0x7E, 0x55, 0x0D, 0x00, 0x00, 0x01, 0x00, 0x71, 0x00, 0x01, 0xDE, 0xAD, 0xBE, 0xEF, 0x24, 0x3B])]
      := by decide +kernel
/-- V24. -/
theorem test_encode_overflow :
    results (exec (.encode .caller [] 0x16#8 (List.replicate 248 0x00#8)) State.reset)
      = [.error (.parameterOverflow 248)] := by decide +kernel

/-! ### DECODE -/

/-- V28, V33. -/
theorem test_decode_frame :
    results (exec (.decode f0) State.reset) =
        [.decoded ⟨(0x7E#8, 0x55#8), 0x08#8, (0x00#8, 0x00#8), (0x01#8, 0x00#8), none, 0x16#8, 0x00#8, [], 0x8F66#16⟩] ∧
      results (exec (.decode (f0.take 10 ++ [0x70#8])) verifying) = [.error (.checksumMismatch 0x7066#16 0x8F66#16)] := by
  decide +kernel
/-- V30, V31, V32, V36. -/
theorem test_decode_malformed :
    results (exec (.decode (f0.take 9)) State.reset) = [.error (.malformedFrame .tooShort (f0.take 9))] ∧
      results (exec (.decode (f0.take 10)) State.reset) = [.error (.malformedFrame .truncated (f0.take 10))] ∧
      results (exec (.decode (b [0x7E, 0x55, 0x07, 0x00, 0x00, 0x01, 0x00, 0x16, 0x00, 0x00])) State.reset)
        = [.error (.malformedFrame .underLength (b [0x7E, 0x55, 0x07, 0x00, 0x00, 0x01, 0x00, 0x16, 0x00, 0x00]))] ∧
      results (exec (.decode (0x00#8 :: f0)) State.reset) = [.error (.malformedFrame .truncated (0x00#8 :: f0))] := by
  decide +kernel

/-! ### The frame rows -/

/-- V19. -/
theorem test_tagFeedback_build :
    results (exec (.tagFeedback (.build .caller [] [0x00#8, 0x00#8])) State.reset)
      = [.encoded (b [0x7E, 0x55, 0x0A, 0x00, 0x00, 0x01, 0x00, 0x15, 0x00, 0x00, 0x00, 0x0A, 0xFC])] := by
  decide +kernel
/-- V15, V28. -/
theorem test_readTag :
    results2 (.readTag (.build .caller [] [])) (.readTag (.read f0)) State.reset =
      [.encoded f0, .decoded ⟨(0x7E#8, 0x55#8), 0x08#8, (0x00#8, 0x00#8), (0x01#8, 0x00#8), none, 0x16#8, 0x00#8, [],
        0x8F66#16⟩] := by decide +kernel
/-- V17. -/
theorem test_readBlock_build :
    results (exec (.readBlock (.build .caller [] [0x04#8])) State.reset) = [.encoded f1] := by decide +kernel
/-- V18 on the transmit path: the payload is what ENCODE returns, the outcome whatever `send` returns. -/
theorem test_writeBlock_transport :
    exec (.writeBlock (.build (.transport 3) [] [])) State.reset =
      .next { State.reset with
        draws := 1
        results := [.transmitted 3 (buildFrame hardwareConfig 0x71#8 []) (Config.freeSendOutcome 0)] } := by
  have h := encodeFrame_ok (cfg := hardwareConfig) (p := []) (c := 0x71#8) (ps := []) (Nat.zero_le _) rfl
  simp only [exec, execWriteBlock, runFrameUse, runEncode, State.reset_cfg, cmdWriteBlock, h]
  rfl
/-- V20, V21. -/
theorem test_frameAny_build :
    results2 (.frameAny 0x00#8 (.build .caller [] [])) (.frameAny 0xFF#8 (.build .caller [] [0xFF#8])) State.reset =
      [.encoded (b [0x7E, 0x55, 0x08, 0x00, 0x00, 0x01, 0x00, 0x00, 0x00, 0x27, 0x4E]),
        .encoded (b [0x7E, 0x55, 0x09, 0x00, 0x00, 0x01, 0x00, 0xFF, 0x00, 0xFF, 0xBF, 0xED])] := by decide +kernel
/-- V27 and, for the record, V36a in layout 1. -/
theorem test_frameLayout1 :
    results2 (.frameLayout1 0x16#8 (.build .caller [] [0xAA#8])) (.frameLayout1 0x16#8 (.read f27)) inLayout1 =
      [.encoded f27, .decoded ⟨(0x7E#8, 0x55#8), 0x0A#8, (0x00#8, 0x00#8), (0x01#8, 0x00#8), some 0x00#8, 0x16#8, 0x00#8,
        [0xAA#8], 0x08E0#16⟩] := by decide +kernel

/-! ### PUSH and CONSUME -/

/-- V57, the byte that passes the cap: at 10 bytes and capacity 10, F1 does not end and the buffer is discarded. -/
theorem test_push_overflow :
    results (exec (.push 0xC8#8) (during (filled (withCap 10) (f1.take 10)))) = [.pushed none (some (.dropOverflow 11))] := by
  decide +kernel
/-- R138: the eleventh byte of F0 completes it. -/
theorem test_push_completes :
    results (exec (.push 0x8F#8) (during (filled State.reset (f0.take 10)))) = [.pushed (some f0) none] := by decide +kernel
/-- R77, R132: a PUSH is not callable from outside; inside a CONSUME it is a step. -/
theorem test_push_outside_consume :
    exec (.push 0x7E#8) State.reset = .refused .pushOutsideConsume ∧
      step (State.reset.setRequests [encodeInstr (.push 0x7E#8)]) = .refused .pushOutsideConsume ∧
      results (step (State.reset.withFetchWord 8 0x7E)) = [.pushed none none] := ⟨rfl, rfl, by decide +kernel⟩
/-- R48, U18: nothing else begins while a CONSUME is under way. -/
theorem test_overlap_refused :
    step ((during (filled State.reset (f0.take 5))).setRequests [encodeInstr (.consume .caller 2000 f0)]) = .refused .overlap := rfl
/-- V40, V42, V52. -/
theorem test_consume_markers :
    results (exec (.consume .caller 0 (0x7E#8 :: f0)) State.reset) =
        [.consumed [] (.dropHead2 0x7E#8 :: garbage (f0.drop 1))] ∧
      results (exec (.consume .caller 0 (b [0x7E, 0x55, 0x0C, 0xAA] ++ f0)) State.reset) =
        [.consumed [b [0x7E, 0x55, 0x0C, 0xAA] ++ f0] []] ∧
      results (exec (.consume .caller 0 (b [0x7E, 0x00, 0x7E, 0x55])) State.reset) =
        [.consumed [] [.dropHead2 0x00#8]] := by decide +kernel
/-- V46, V47, V54a. -/
theorem test_consume_staleness :
    results2 (.consume .caller 0 (f0.take 5)) (.consume .caller 1000 (f0.drop 5)) State.reset =
        [.consumed [] [], .consumed [f0] []] ∧
      results2 (.consume .caller 0 (f0.take 5)) (.consume .caller 1001 (f0.drop 5)) State.reset =
        [.consumed [] [], .consumed [] (.dropStale 5 :: garbage (f0.drop 5))] ∧
      results2 (.consume .caller 0 (f0.take 5)) (.consume .caller 1001 []) State.reset =
        [.consumed [] [], .consumed [] [.dropStale 5]] := by decide +kernel
/-- V43 on the receive path, and V55: a frame too short for layout 1 is dropped with an event. -/
theorem test_rxpath :
    (results (exec (.consume .decoder 0 (f0 ++ f1)) State.reset)).map summary =
        [([(0x16#8, []), (0x70#8, [0x04#8])], [])] ∧
      results (exec (.consume .decoder 0 f0) inLayout1) =
        [.received [] [.decodeDropped f0 (.malformedFrame .underLength f0)]] := by decide +kernel
/-- RX_FRAME: F0 arrives whole. -/
theorem test_rxFrame :
    results (exec (.rxFrame 5 f0) State.reset) =
        [.received [⟨(0x7E#8, 0x55#8), 0x08#8, (0x00#8, 0x00#8), (0x01#8, 0x00#8), none, 0x16#8, 0x00#8, [], 0x8F66#16⟩] []] ∧
      lenAndTime (exec (.rxFrame 5 f0) State.reset) = some (0, 5) := by decide +kernel
/-- R77: a reserved select code is refused. -/
theorem test_reserved_refused (s : State) : exec (.opselReserved 9#4) s = .refused (.reservedOpsel 9#4) := rfl

/-! ### Witnesses: states that meet the invariant -/

/-- A test for the invariant by computation, for states whose buffer lists exactly the bytes below `len`. -/
def invCheck (s : State) : Bool :=
  Memory.wf s.buf && s.buf.all (fun c => decide (c.1 ≤ s.cfg.bufCap)) && decide (s.len ≤ s.cfg.bufCap) &&
    (List.range s.len).all (fun i => (Memory.read s.buf i).isSome) &&
    (decide (s.len < 1) || Memory.read s.buf 0 == some 0x7E#8) &&
    (decide (s.len < 2) || Memory.read s.buf 1 == some 0x55#8) &&
    (decide (s.len ≤ 10) || match Memory.read s.buf 2 with
      | some v => decide (s.len ≠ v.toNat + 3)
      | none => true) &&
    (decide (s.len < 1) || s.stamped || s.consuming)

theorem read_none_above {m : Memory} {n : Nat} (h : m.all (fun c => decide (c.1 ≤ n)) = true) (a : Nat) (ha : n < a) :
    Memory.read m a = none := by
  induction m with
  | nil => rfl
  | cons c m ih =>
    obtain ⟨k, v⟩ := c
    simp only [List.all_cons, Bool.and_eq_true, decide_eq_true_eq] at h
    rw [Memory.read, if_neg (by omega)]
    exact ih h.2

theorem inv_of_check {s : State} (h : invCheck s = true) : s.Inv := by
  simp only [invCheck, Bool.and_eq_true] at h
  obtain ⟨⟨⟨⟨⟨⟨⟨h1, h2⟩, h3⟩, h4⟩, h5⟩, h6⟩, h7⟩, h8⟩ := h
  refine ⟨⟨h1, fun a ha => read_none_above h2 a ha, by simpa using h3, fun i hi => ?_, fun h0 => ?_, fun h0 => ?_,
    fun h10 v hv => ?_⟩, fun h0 => ?_⟩
  · exact Option.isSome_iff_exists.mp (List.all_eq_true.mp h4 i (by simpa using hi))
  · have : ¬s.len < 1 := by omega
    simpa [State.holds, head0, this] using h5
  · have : ¬s.len < 2 := by omega
    simpa [State.holds, head1, this] using h6
  · simp only [checkFloor] at h10
    have : ¬s.len ≤ 10 := by omega
    simp only [State.holds] at hv
    simpa [hv, this, expectedTotal_eq] using h7
  · have : ¬s.len < 1 := by omega
    simpa [this] using h8

/-- The first five bytes of F0 with the last activity at 0, as in V46. -/
def five : State := filled State.reset (f0.take 5)

/-- The first ten bytes of F0. -/
def ten : State := filled State.reset (f0.take 10)

/-- Ten bytes of F1 at capacity 10, as in V57: a full buffer. -/
def full : State := filled (withCap 10) (f1.take 10)

theorem inv_reset : State.reset.Inv := inv_of_check (by decide +kernel)
theorem inv_withCap (n : Nat) : (withCap n).Inv := State.BufferInv.inv_of_empty
  ⟨rfl, fun _ _ => rfl, Nat.zero_le _, fun _ h => absurd h (by simp [withCap]), fun h => absurd h (by simp [withCap]),
    fun h => absurd h (by simp [withCap]), fun h => absurd h (by simp [withCap, checkFloor])⟩ rfl
theorem inv_five : five.Inv := inv_of_check (by decide +kernel)
theorem inv_ten : ten.Inv := inv_of_check (by decide +kernel)
theorem inv_full : full.Inv := inv_of_check (by decide +kernel)
theorem inv_verifying : verifying.Inv := inv_of_check (by decide +kernel)
theorem inv_during {s : State} (h : s.Inv) : (during s).Inv :=
  State.BufferInv.inv_of_consuming (h.toBufferInv.congr rfl rfl rfl) rfl
theorem ready_five : five.Ready := ⟨inv_five, rfl⟩

/-- A parameter list of zeros. -/
def zeros (n : Nat) : List Byte := List.replicate n 0x00#8

theorem zeros_length (n : Nat) : (zeros n).length = n := List.length_replicate

/-- PREFIX_MAX is unbounded in the reset state. -/
theorem prefixFits_reset (p : List Byte) : PrefixFits State.reset.cfg p := fun m h => by cases h

/-- A state with PREFIX_MAX = 0. -/
def noPrefix : State := { State.reset with cfg := { hardwareConfig with prefixMax := some 0 } }

/-- Ten bytes of F1 at capacity 11, mid-way through a CONSUME. -/
def atEleven : State := during (filled (withCap 11) (f1.take 10))

/-- Nine bytes of F0 at capacity 9, mid-way through a CONSUME. -/
def atNine : State := during (filled (withCap 9) (f0.take 9))

/-- Five bytes and the clock behind the last activity. -/
def behind : State := { five with lastActivity := 9 }

/-- A gap of exactly the window is not stale. -/
theorem noStaleGap_five : NoStaleGap 1000 five := .inr (by decide +kernel)

/-- One byte more and it is. -/
theorem staleGap_five : five.len ≠ 0 ∧ EnvironmentDuty 1001 five ∧
    five.cfg.staleWindow < clockReading five.cfg 1001 - five.lastActivity := by decide +kernel

/-- A CONSUME of F0 asked of `five`. -/
def asked : State := five.setRequests [encodeInstr (.consume .caller 7 f0)]

/-- A PUSH asked of `five` mid-way through a CONSUME. -/
def pushing : State := (during five).setRequests [encodeInstr (.push 0x01#8)]

/-- The pieces of V46: F0 in two parts, a window apart. -/
def pieces : List (Nat × List Byte) := [(1000, f0.drop 5)]

theorem paced_pieces : Paced 1000 0 pieces := by simp [Paced, pieces, f0, b]

/-! ### Witnesses: the hypotheses of each statement, met together -/

theorem witness_ResetClearsOnlyFillCount : ∃ t, exec .reset five = .next t := ⟨_, rfl⟩
theorem witness_StepRunsDecodedRequest :
    (decodeRequest (encodeInstr (.push 0x7E#8)) = .ok (.push 0x7E#8) ∧ (Instr.push 0x7E#8).wf = true ∧
      (State.reset.setRequests [encodeInstr (.push 0x7E#8)]).requests = encodeInstr (.push 0x7E#8) :: []) ∧
    (decodeRequest (encodeInstr .reset) = .ok .reset ∧ Instr.reset.wf = true ∧
      (State.reset.setRequests [encodeInstr .reset]).consuming = false ∧
      ((during State.reset).setRequests [encodeInstr .reset]).consuming = true ∧
      (State.reset.setRequests [encodeInstr .reset]).requests = encodeInstr .reset :: []) ∧
    (decodeRequest ⟨.op, [], []⟩ = .error .wordSize ∧
      (State.reset.setRequests [⟨.op, [], []⟩]).requests = ⟨.op, [], []⟩ :: []) ∧
    State.reset.requests = [] := by decide
theorem witness_DecodeOfEncodeIsSame :
    (Instr.opselReserved 5#4).wf = true ∧ (Instr.opselReserved 15#4).wf = true ∧ (Instr.readTag (.read f0)).wf = true ∧
      (Instr.rxFrame 0 f0).wf = true ∧ (Instr.encode .caller [] 0x16#8 []).wf = true := by decide
theorem witness_DecodedIsWellFormed : decodeRequest ⟨.frame0, f0, []⟩ = .ok (.readTag (.read f0)) := by decide
theorem witness_ReservedSelectorsRefused : 5 ≤ (5#4 : BitVec 4).toNat ∧ 5 ≤ (15#4 : BitVec 4).toNat := by decide
theorem witness_Crc16IsBitwiseProcedure :
    (0 ≤ 0 ∧ 0 ≤ ([] : List Byte).length) ∧ (2 ≤ 9 ∧ 9 ≤ (f0.take 9).length) := by decide
theorem witness_Crc16RangeCases :
    (3 ≤ 3 ∧ 3 ≤ (f0.take 3).length) ∧ 1 < 2 ∧ (0 < 4 ∧ (f0.take 3).length < 4) := by decide
theorem witness_Crc16DependsOnSliceOnly : 2 ≤ 3 ∧ 3 ≤ (b [0xAA, 0xBB, 0x01]).length := by decide
theorem witness_Crc16ResidueIsConstant :
    exec (.crc16 [] 0 ([] : List Byte).length) State.reset = .next (answered State.reset (.crc 0x0000#16)) := by
  simp [exec, execCrc16, crcRangeOk, crc16_empty]; rfl
theorem witness_EncodeBuildsFrame :
    ((zeros 247).length ≤ 247 - Spec.signBytes State.reset.cfg ∧
      PrefixFits State.reset.cfg [0x00#8]) ∧
    ¬((zeros 248).length ≤ 247 - Spec.signBytes State.reset.cfg ∧
      PrefixFits State.reset.cfg []) ∧
    ¬(([] : List Byte).length ≤ 247 - Spec.signBytes noPrefix.cfg ∧ PrefixFits noPrefix.cfg [0x00#8]) :=
  ⟨⟨by rw [zeros_length]; decide, prefixFits_reset _⟩,
    fun h => absurd h.1 (by rw [zeros_length]; decide), fun h => absurd (h.2 0 rfl) (by decide)⟩
theorem witness_EncodeResultSize :
    (zeros 247).length ≤ 247 - Spec.signBytes State.reset.cfg ∧
      PrefixFits State.reset.cfg [0x00#8] := witness_EncodeBuildsFrame.1
theorem witness_EncodedFrameMatchesItsRow :
    State.reset.cfg.layout = .layout0 ∧ (zeros 247).length ≤ 247 := ⟨rfl, by rw [zeros_length]⟩
theorem witness_TransmitPathSendsWhatEncodeReturns :
    (∃ bytes, exec (.encode .caller [] 0x16#8 []) State.reset = .next (answered State.reset (.encoded bytes))) ∧
    (∃ e, exec (.encode .caller [] 0x16#8 (zeros 248)) State.reset =
      .next (answered State.reset (.error e))) := by
  constructor
  · have h := encodeFrame_ok (cfg := State.reset.cfg) (p := []) (c := 0x16#8) (ps := []) (Nat.zero_le _) rfl
    exact ⟨_, by simp only [exec, execEncode, runEncode, h]; rfl⟩
  · have h := encodeFrame_overflow (cfg := State.reset.cfg) (p := []) (c := 0x16#8) (ps := zeros 248)
      (.inl (by rw [zeros_length]; decide))
    exact ⟨_, by simp only [exec, execEncode, runEncode, h]; rfl⟩
theorem witness_DecodeChecksInOrder :
    (f0.take 9).length < 10 ∧
    ((f0.take 10)[2]? = some 0x08#8 ∧ 10 ≤ (f0.take 10).length ∧ (f0.take 10).length < 3 + (0x08#8 : Byte).toNat) ∧
    ((b [0x7E, 0x55, 0x07, 0x00, 0x00, 0x01, 0x00, 0x16, 0x00, 0x00])[2]? = some 0x07#8 ∧
      10 ≤ (b [0x7E, 0x55, 0x07, 0x00, 0x00, 0x01, 0x00, 0x16, 0x00, 0x00]).length ∧
      3 + (0x07#8 : Byte).toNat ≤ (b [0x7E, 0x55, 0x07, 0x00, 0x00, 0x01, 0x00, 0x16, 0x00, 0x00]).length ∧
      (0x07#8 : Byte).toNat < 8 + Spec.signBytes State.reset.cfg) := by decide +kernel
theorem accepted_f0 : Accepted 0 f0 0x08#8 := by unfold Accepted; decide
theorem witness_DecodeReadsByPosition :
    (Accepted (Spec.signBytes State.reset.cfg) f0 0x08#8 ∧ State.reset.cfg.verifyCrc = false) ∧
    (Accepted (Spec.signBytes verifying.cfg) f0 0x08#8 ∧ checksum ((f0.drop 2).take 7) = 0x8F66#16) ∧
    (Accepted (Spec.signBytes verifying.cfg) (f0.take 10 ++ [0x70#8]) 0x08#8 ∧ verifying.cfg.verifyCrc = true ∧
      checksum (((f0.take 10 ++ [0x70#8]).drop 2).take 7) ≠ 0x7066#16) := by
  unfold Accepted; decide +kernel
theorem witness_DecodedLengthCountsParameters :
    ∃ t f, exec (.decode f0) State.reset = .next t ∧ t.results = State.reset.results ++ [.decoded f] := by
  obtain ⟨r, hr, h⟩ := runDecode_spec State.reset.cfg f0 State.reset
  have : ∃ f, decodeFrame State.reset.cfg f0 = .ok (.ok f) :=
    ⟨⟨(0x7E#8, 0x55#8), 0x08#8, (0x00#8, 0x00#8), (0x01#8, 0x00#8), none, 0x16#8, 0x00#8, [], 0x8F66#16⟩, by
      decide +kernel⟩
  obtain ⟨f, hf⟩ := this
  rw [hf] at hr
  simp only [Except.ok.injEq] at hr
  subst hr
  exact ⟨_, f, h, rfl⟩
theorem witness_DecodeIgnoresTrailingBytes : Accepted (Spec.signBytes State.reset.cfg) f0 0x08#8 := accepted_f0
theorem witness_DecodeDoesNotValidateChecksum :
    State.reset.cfg.verifyCrc = false ∧ (f0.take 9)[2]? = some 0x08#8 ∧
      8 + Spec.signBytes State.reset.cfg ≤ (0x08#8 : Byte).toNat ∧ (f0.take 9).length = (0x08#8 : Byte).toNat + 1 := by
  decide
theorem witness_DecodeOfEncodedFrameReturnsOperands :
    (zeros 247).length ≤ 247 - Spec.signBytes State.reset.cfg ∧
      PrefixFits State.reset.cfg [0x00#8] := witness_EncodeBuildsFrame.1
/-- Each row of the list, with operands of both clauses. -/
theorem witness_FrameRowsWriteTheirCommand (cc : Byte) :
    ((Instr.tagFeedback, 0x15#8) ∈ [(Instr.tagFeedback, 0x15#8), (Instr.readTag, 0x16#8), (Instr.readBlock, 0x70#8),
      (Instr.writeBlock, 0x71#8), (Instr.frameAny 0x15#8, 0x15#8)] ∧
    (Instr.frameAny cc, cc) ∈ [(Instr.tagFeedback, 0x15#8), (Instr.readTag, 0x16#8), (Instr.readBlock, 0x70#8),
      (Instr.writeBlock, 0x71#8), (Instr.frameAny cc, cc)]) ∧
    ((zeros 247).length ≤ 247 - Spec.signBytes State.reset.cfg ∧
      PrefixFits State.reset.cfg [0x00#8]) ∧
    ¬((zeros 248).length ≤ 247 - Spec.signBytes State.reset.cfg ∧
      PrefixFits State.reset.cfg []) :=
  ⟨⟨by simp, by simp⟩, witness_EncodeBuildsFrame.1, witness_EncodeBuildsFrame.2.1⟩
theorem witness_FrameRowsReadTheirCommand :
    (Instr.readTag, 0x16#8) ∈ [(Instr.tagFeedback, 0x15#8), (Instr.readTag, 0x16#8), (Instr.readBlock, 0x70#8),
      (Instr.writeBlock, 0x71#8), (Instr.frameAny 0x16#8, 0x16#8)] ∧
    State.reset.cfg.layout = .layout0 ∧ State.reset.cfg.verifyCrc = false ∧ (Instr.readTag (.read f0)).wf = true ∧
    Accepted 0 f0 0x08#8 := ⟨by simp, rfl, rfl, by decide, accepted_f0⟩
theorem witness_LayoutOneFrameCarriesSignByte :
    ((zeros 246).length ≤ 246 ∧ PrefixFits State.reset.cfg []) ∧
    ¬((zeros 247).length ≤ 246 ∧ PrefixFits State.reset.cfg []) ∧
    (State.reset.cfg.verifyCrc = false ∧ (Instr.frameLayout1 0x16#8 (.read f27)).wf = true ∧ Accepted 1 f27 0x0A#8) :=
  ⟨⟨by rw [zeros_length], prefixFits_reset _⟩, fun h => absurd h.1 (by rw [zeros_length]; decide), rfl, by decide, by unfold Accepted; decide⟩
theorem witness_FrameRowsAlwaysAnswer :
    Instr.tagFeedback (.read f0) ∈ [.tagFeedback (.read f0), .readTag (.read f0), .readBlock (.read f0),
      .writeBlock (.read f0), .frameAny 0x16#8 (.read f0), .frameLayout1 0x16#8 (.read f0)] := by simp
theorem witness_PushDropsGarbage : (during State.reset).consuming = true ∧ (during State.reset).len = 0 ∧ (0x55#8 : Byte) ≠ 0x7E#8 := by decide
theorem witness_PushDropsWrongSecondHeadByte :
    (during (filled State.reset [0x7E#8])).consuming = true ∧ (during (filled State.reset [0x7E#8])).len = 1 ∧ (0x7E#8 : Byte) ≠ 0x55#8 := by decide
/-- From EMPTY; and at the check floor and the cap, where the eleventh byte does not yet complete. -/
theorem witness_PushAppendsByte :
    ((during State.reset).consuming = true ∧ HeadRight 0x7E#8 (during State.reset) ∧ (during State.reset).Inv ∧
      (during State.reset).len + 1 ≤ (during State.reset).cfg.bufCap ∧ NoCompletion (during State.reset)) ∧
    (atEleven.consuming = true ∧ HeadRight 0xC8#8 atEleven ∧ atEleven.len + 1 ≤ atEleven.cfg.bufCap ∧
      NoCompletion atEleven) :=
  ⟨⟨rfl, ⟨fun _ => rfl, fun h => absurd h (by decide)⟩, inv_during inv_reset, by decide, .inl (by decide)⟩,
    ⟨rfl, ⟨fun h => absurd h (by decide), fun h => absurd h (by decide)⟩, by decide,
      .inr ⟨0x09#8, by decide +kernel, by decide +kernel⟩⟩⟩
theorem witness_PushEmitsCompleteFrame :
    (during ten).consuming = true ∧ (during ten).Inv ∧
      (10 < (during ten).len + 1 ∧ (during ten).holds 2 0x08#8 ∧ (during ten).len + 1 = (0x08#8 : Byte).toNat + 3) ∧
      results (exec (.push 0x8F#8) (during ten)) = (during ten).results ++ [.pushed (some f0) none] :=
  ⟨rfl, inv_during inv_ten, by decide +kernel, by decide +kernel⟩
/-- Capacity 10 with a length byte that asks for 12 bytes, and capacity 9, below the check floor. -/
theorem witness_PushOverflowDiscardsBuffer :
    ((during full).consuming = true ∧ HeadRight 0xC8#8 (during full) ∧ (during full).len = (during full).cfg.bufCap ∧
      NoCompletion (during full)) ∧
    (atNine.consuming = true ∧ HeadRight 0x66#8 atNine ∧ atNine.len = atNine.cfg.bufCap ∧ NoCompletion atNine) :=
  ⟨⟨rfl, ⟨fun h => absurd h (by decide), fun h => absurd h (by decide)⟩, by decide,
      .inr ⟨0x09#8, by decide +kernel, by decide +kernel⟩⟩,
    ⟨rfl, ⟨fun h => absurd h (by decide), fun h => absurd h (by decide)⟩, by decide, .inl (by decide)⟩⟩
/-- With an empty buffer; with a gap of exactly the window; with a gap one beyond it. -/
theorem witness_ConsumeRunsItsProcedure :
    (State.reset.Inv ∧ State.reset.len = 0) ∧
    (five.Inv ∧ EnvironmentDuty 1000 five ∧
      ¬(five.len ≠ 0 ∧ five.cfg.staleWindow < clockReading five.cfg 1000 - five.lastActivity)) ∧
    (five.Inv ∧ EnvironmentDuty 1001 five ∧
      (five.len ≠ 0 ∧ five.cfg.staleWindow < clockReading five.cfg 1001 - five.lastActivity)) :=
  ⟨⟨inv_reset, rfl⟩, ⟨inv_five, by decide +kernel⟩, inv_five, by decide +kernel⟩
theorem witness_StaleBufferIsDiscardedFirst :
    five.Inv ∧ five.len ≠ 0 ∧ EnvironmentDuty 1001 five ∧
      five.cfg.staleWindow < clockReading five.cfg 1001 - five.lastActivity := ⟨inv_five, staleGap_five⟩
theorem witness_EmptyChunkOnlyChecksStaleness :
    five.consuming = false ∧ NoStaleGap 1000 five ∧ (five.len ≠ 0 ∧ EnvironmentDuty 1001 five ∧
      five.cfg.staleWindow < clockReading five.cfg 1001 - five.lastActivity) := ⟨rfl, noStaleGap_five, staleGap_five⟩
/-- V54: an empty chunk inside the window, and one beyond it. -/
theorem witness_EmptyChunkLeavesLaterFramesAlone :
    five.Inv ∧ five.cfg.timeBits = none ∧ (five.lastActivity ≤ 900 ∧ 900 ≤ 1000) ∧
      (five.lastActivity ≤ 1001 ∧ 1001 ≤ 1002) ∧ f0.drop 5 ≠ [] :=
  ⟨inv_five, rfl, by decide +kernel, by decide +kernel, by decide⟩
theorem witness_BackwardClockLeavesStalenessFree :
    behind.consuming = false ∧ behind.len ≠ 0 ∧ clockReading behind.cfg 8 < behind.lastActivity := by decide +kernel
theorem witness_NonemptyChunkStampsActivity : five.Inv ∧ five.cfg.timeBits = none := ⟨inv_five, rfl⟩
theorem witness_ReassemblerAlwaysAnswers :
    (five.Ready ∧ Instr.consume .decoder 7 f0 ∈ [.consume .decoder 7 f0, .rxFrame 7 f0] ∧
      Instr.rxFrame 7 f0 ∈ [.consume .decoder 7 f0, .rxFrame 7 f0]) ∧
    ((during full).Inv ∧ (during full).consuming = true) :=
  ⟨⟨ready_five, by simp, by simp⟩, inv_during inv_full, rfl⟩
theorem witness_EmittedFramesAreSized :
    State.reset.Inv ∧ results (exec (.consume .caller 0 f0) State.reset) = [.consumed [f0] []] :=
  ⟨inv_reset, by decide +kernel⟩
theorem witness_ChunkBoundariesDoNotMatter :
    State.reset.Inv ∧ State.reset.cfg.timeBits = none ∧ NoStaleGap 0 State.reset ∧ f0.take 5 ≠ [] ∧
      Paced State.reset.cfg.staleWindow 0 pieces := ⟨inv_reset, rfl, .inl rfl, by decide, paced_pieces⟩
theorem witness_LeadingGarbageHasNoEffect :
    State.reset.Inv ∧ State.reset.len = 0 ∧ 0x7E#8 ∉ (b [0xFF, 0x55] : List Byte) := ⟨inv_reset, rfl, by decide⟩
/-- The smallest frame that passes, and at capacity 11 the largest. -/
theorem witness_SizedFramePasses :
    (State.reset.Inv ∧ State.reset.len = 0 ∧ Sized f0 ∧ 11 ≤ f0.length ∧ f0.length ≤ State.reset.cfg.bufCap + 1) ∧
    ((withCap 11).Inv ∧ (withCap 11).len = 0 ∧ Sized f1 ∧ 11 ≤ f1.length ∧ f1.length ≤ (withCap 11).cfg.bufCap + 1) :=
  ⟨⟨inv_reset, rfl, ⟨rfl, rfl, 0x08#8, rfl, rfl⟩, by decide, by decide⟩,
    ⟨inv_withCap 11, rfl, ⟨rfl, rfl, 0x09#8, rfl, rfl⟩, by decide, by decide⟩⟩
/-- V57 at capacity 10 with the length byte one too large, and with the length byte just below 8. -/
theorem witness_UnmatchableLengthIsDiscardedAtCap :
    ((withCap 10).Inv ∧ (withCap 10).len = 0 ∧ (f1.take 11)[0]? = some 0x7E#8 ∧ (f1.take 11)[1]? = some 0x55#8 ∧
      (f1.take 11)[2]? = some 0x09#8 ∧ (f1.take 11).length = (withCap 10).cfg.bufCap + 1 ∧
      (withCap 10).cfg.bufCap + 1 < (0x09#8 : Byte).toNat + 3) ∧
    ((b [0x7E, 0x55, 0x07, 0, 0, 0, 0, 0, 0, 0, 0])[2]? = some 0x07#8 ∧
      (b [0x7E, 0x55, 0x07, 0, 0, 0, 0, 0, 0, 0, 0]).length = (withCap 10).cfg.bufCap + 1 ∧
      (0x07#8 : Byte).toNat < 8) :=
  ⟨⟨inv_withCap 10, rfl, rfl, rfl, rfl, rfl, by decide⟩, rfl, rfl, by decide⟩
theorem witness_ReassemblerReturnsToEmpty :
    (withCap 10).Inv ∧ NoStaleGap 0 (withCap 10) ∧ (f1.take 11).length = (withCap 10).cfg.bufCap + 1 :=
  ⟨inv_withCap 10, .inl rfl, rfl⟩
theorem witness_ReceivePathDecodesEachEmittedFrame : State.reset.Inv := inv_reset
theorem witness_LayoutZeroReceiveNeverDrops :
    five.Inv ∧ five.cfg.layout = .layout0 ∧ five.cfg.verifyCrc = false := ⟨inv_five, rfl, rfl⟩
/-- READ_TAG without parameters, the frame cut in two a window apart; and the largest parameter count that passes. -/
theorem witness_LoopBackReturnsOperands :
    State.reset.Inv ∧ State.reset.len = 0 ∧ State.reset.cfg.layout = .layout0 ∧ State.reset.cfg.timeBits = none ∧
      ([] : List Byte).length ≤ 247 ∧ ([] : List Byte).length + 10 ≤ State.reset.cfg.bufCap ∧
      PrefixFits State.reset.cfg [] ∧ 0x7E#8 ∉ ([] : List Byte) ∧ f0.take 5 ≠ [] ∧
      Paced State.reset.cfg.staleWindow 0 pieces ∧ joined ((0, f0.take 5) :: pieces) = f0 ∧
      results (exec (.encode .caller [] 0x16#8 []) State.reset) = [.encoded f0] ∧
      (zeros 90).length + 10 ≤ State.reset.cfg.bufCap :=
  ⟨inv_reset, rfl, rfl, rfl, by simp, by decide, prefixFits_reset _, by simp, by decide, paced_pieces, by decide,
    by decide +kernel, by rw [zeros_length]; decide⟩
theorem witness_ReceivedFrameRunsReceivePath :
    State.reset.Inv ∧ State.reset.len = 0 ∧ State.reset.cfg.layout = .layout0 ∧ State.reset.cfg.verifyCrc = false ∧
      Sized f0 ∧ 11 ≤ f0.length ∧ f0.length ≤ State.reset.cfg.bufCap + 1 :=
  ⟨inv_reset, rfl, rfl, rfl, ⟨rfl, rfl, 0x08#8, rfl, rfl⟩, by decide, by decide⟩
/-- A CONSUME between operations; and a PUSH inside a CONSUME. -/
theorem witness_StepKeepsInvariant :
    (asked.Ready ∧ ∃ t, step asked = .next t) ∧ (pushing.Inv ∧ ∃ t, step pushing = .next t) := by
  refine ⟨⟨ready_five.congr rfl rfl rfl rfl rfl, ?_⟩, (inv_during inv_five).congr rfl rfl rfl rfl rfl, ?_⟩
  · obtain ⟨r, hr, -⟩ := consumeChunk_total 7 f0 (s := five.setRequests []) (inv_five.toBufferInv.congr rfl rfl rfl)
    exact ⟨_, execConsume_caller hr⟩
  · obtain ⟨p, hp⟩ := pushByte_total 0x01#8 (s := (during five).setRequests [])
      ((inv_during inv_five).toBufferInv.congr rfl rfl rfl)
    exact ⟨_, execPush_of_consuming rfl hp⟩
theorem witness_StepNeverStuck : pushing.Inv := witness_StepKeepsInvariant.2.1
theorem witness_ConfigurationNeverChanges : ∃ t, step asked = .next t := witness_StepKeepsInvariant.1.2
theorem witness_PureOperationsLeaveBlockState :
    Pure (.crc16 f0 2 2) ∧ ∃ t, exec (.crc16 f0 2 2) five = .next t := ⟨trivial, _, rfl⟩
theorem witness_EveryOperationHasOneResult : ∃ t, exec (.crc16 f0 2 2) five = .next t := ⟨_, rfl⟩
theorem witness_EarlierResultsAreNeverRead : ∃ t, exec .reset five = .next t := ⟨_, rfl⟩
theorem witness_ErrorsChangeNothing :
    exec (.decode []) five = .next (answered five (.error (.malformedFrame .tooShort []))) ∧
      (answered five (.error (.malformedFrame .tooShort []))).results =
        five.results ++ [.error (.malformedFrame .tooShort [])] := ⟨rfl, rfl⟩
/-- F0's first five bytes, with and without a byte left over at address 9. -/
theorem witness_BytesAboveFillCountAreNeverRead :
    five.Inv ∧ State.Inv { five with buf := Memory.write five.buf 9 0xEE#8 } ∧
      (∀ k, k < five.len → Memory.read (Memory.write five.buf 9 0xEE#8) k = Memory.read five.buf k) ∧
      (∃ t, exec .reset five = .next t) :=
  ⟨inv_five, inv_of_check (by decide +kernel), fun k hk => Memory.read_write_other _ _ (by
    have : five.len = 5 := rfl
    omega), _, rfl⟩
theorem witness_TimestampUnreadWhileEmpty : State.reset.Inv ∧ State.reset.len = 0 ∧ f0 ≠ [] :=
  ⟨inv_reset, rfl, by decide⟩
theorem witness_PushOutsideConsumeIsRefused :
    (State.reset.setRequests [encodeInstr (.push 0x7E#8)]).consuming = false ∧
      (State.reset.setRequests [encodeInstr (.push 0x7E#8)]).requests = encodeInstr (.push 0x7E#8) :: [] ∧
      decodeRequest (encodeInstr (.push 0x7E#8)) = .ok (.push 0x7E#8) := by decide
/-- From reset: a step that writes the timestamp, one that does not, and one that is refused. -/
theorem witness_UnwrittenTimestampIsNeverRead :
    (State.reset.setRequests [encodeInstr (.consume .caller 2000 f0)]).Inv ∧
      (State.reset.setRequests [encodeInstr (.consume .caller 2000 f0)]).stamped = false ∧
      lenAndTime (step (State.reset.setRequests [encodeInstr (.consume .caller 2000 f0)])) = some (0, 2000) ∧
      lenAndTime (step (State.reset.setRequests [encodeInstr (.consume .caller 2000 [])])) = some (0, 0) ∧
      step (State.reset.setRequests [encodeInstr (.push 0x7E#8)]) = .refused .pushOutsideConsume :=
  ⟨inv_reset.congr rfl rfl rfl rfl rfl, rfl, by decide +kernel, by decide +kernel, rfl⟩

end Sys2Proof.Tests
end

section
/-! PROOFS. The statements about the state: its values at reset, that every step keeps the invariant of 10_state.md R23
and the configuration, and which parts of the state no operation reads. All but the first rest on one lemma,
`ActsAlike.exec_next`: what an operation does from two states, given what its parts do from them. -/

namespace Sys2Proof.Machine

/-! ### Two states, one operation -/

/-- The parts that operations are made of do alike from `s` and from `u`: each gives the same results from both, and
leaves states in the relation `Q`. -/
structure ActsAlike (Q : State → State → Prop) (s u : State) : Prop where
  cfg : u.cfg = s.cfg
  draws : u.draws = s.draws
  consuming : u.consuming = s.consuming
  same : Q s u
  drawn : Q s.advanceDraws u.advanceDraws
  emptied : Q (s.setLen 0).forgetActivity (u.setLen 0).forgetActivity
  consume : ∀ {now chunk q}, consumeChunk now chunk s = .ok q →
    ∃ v, consumeChunk now chunk u = .ok ⟨v, q.frames, q.events⟩ ∧ Q q.state v
  push : s.consuming = true → ∀ {b p}, pushByte b s = .ok p →
    ∃ v, pushByte b u = .ok ⟨v, p.frame, p.event⟩ ∧ Q p.state v

/-- Two outcomes that hand back one and the same result on states in the relation `Q`. -/
def EndsAlike (Q : State → State → Prop) (o o' : Host.Outcome State Fault Refusal) : Prop :=
  ∃ r s' u', o = .next (s'.record r) ∧ o' = .next (u'.record r) ∧ Q s' u'

/-- CONSUME and RXPATH see of the state what CONSUME's parts see, and the configuration. -/
theorem execConsume_alike (dest : RxDest) {now : Nat} {chunk : List Byte} {s u v : State} {q : RsmResult}
    (hs : consumeChunk now chunk s = .ok q) (hu : consumeChunk now chunk u = .ok ⟨v, q.frames, q.events⟩)
    (hcfg : u.cfg = s.cfg) :
    ∃ x, execConsume dest now chunk s = .next (q.state.record x) ∧
      execConsume dest now chunk u = .next (v.record x) := by
  cases dest with
  | caller => exact ⟨_, execConsume_caller hs, execConsume_caller hu⟩
  | decoder =>
    obtain ⟨frames, events, hd, h⟩ := receiveChunk_of_consume hs
    exact ⟨_, h, by simp [execConsume, receiveChunk, hu, hcfg, hd]⟩

section alike
variable {Q : State → State → Prop} {s u : State} (ha : ActsAlike Q s u)
include ha

/-- DECODE reads nothing of the state but the configuration it is run under. -/
theorem ActsAlike.endsAlike_runDecode (cfg : Config) (bytes : List Byte) :
    EndsAlike Q (runDecode cfg bytes s) (runDecode cfg bytes u) := by
  obtain ⟨r, hr, hs⟩ := runDecode_spec cfg bytes s
  obtain ⟨r', hr', hu⟩ := runDecode_spec cfg bytes u
  obtain rfl : r = r' := Except.ok.inj (hr.symm.trans hr')
  exact ⟨_, s, u, hs, hu, ha.same⟩

/-- ENCODE and TXPATH read nothing besides but the draw counter. -/
theorem ActsAlike.endsAlike_runEncode (cfg : Config) (dest : TxDest) (p : List Byte) (c : Byte) (ps : List Byte) :
    EndsAlike Q (runEncode cfg dest p c ps s) (runEncode cfg dest p c ps u) := by
  unfold runEncode
  cases encodeFrame cfg p c ps with
  | error e => exact ⟨_, s, u, rfl, rfl, ha.same⟩
  | ok bytes =>
    cases dest with
    | caller => exact ⟨_, s, u, rfl, rfl, ha.same⟩
    | transport id => exact ⟨_, _, _, rfl, by simp [sendToTransport, ha.draws], ha.drawn⟩

/-- A frame row is ENCODE or DECODE. -/
theorem ActsAlike.endsAlike_runFrameUse (cfg : Config) (c : Byte) (use : FrameUse) :
    EndsAlike Q (runFrameUse cfg c use s) (runFrameUse cfg c use u) := by
  cases use with
  | build dest p ps => exact ha.endsAlike_runEncode cfg dest p c ps
  | read bytes => exact ha.endsAlike_runDecode cfg bytes

/-- CONSUME and RXPATH, from what CONSUME's parts do. -/
theorem ActsAlike.endsAlike_execConsume (dest : RxDest) {now : Nat} {chunk : List Byte} {t : State}
    (h : execConsume dest now chunk s = .next t) :
    EndsAlike Q (execConsume dest now chunk s) (execConsume dest now chunk u) := by
  obtain ⟨q, -, hq, -, -⟩ := execConsume_next h
  obtain ⟨v, hv, hrel⟩ := ha.consume hq
  obtain ⟨x, hs, hu⟩ := execConsume_alike dest hq hv ha.cfg
  exact ⟨x, _, v, hs, hu, hrel⟩

/-- Where the parts do alike, so does every operation that answers. -/
theorem ActsAlike.endsAlike_exec {i : Instr} {t : State} (h : exec i s = .next t) :
    EndsAlike Q (exec i s) (exec i u) := by
  have frameUse : ∀ c use, EndsAlike Q (runFrameUse s.cfg c use s) (runFrameUse u.cfg c use u) :=
    fun c use => ha.cfg ▸ ha.endsAlike_runFrameUse s.cfg c use
  cases i with
  | reset => exact ⟨_, _, _, rfl, rfl, ha.emptied⟩
  | crc16 bytes start stop =>
    simp only [exec, execCrc16] at h ⊢
    split
    · exact ⟨_, s, u, rfl, rfl, ha.same⟩
    · rw [if_neg ‹_›] at h; cases h
  | encode dest p c ps => exact frameUse c (.build dest p ps)
  | decode bytes =>
    have := ha.endsAlike_runDecode s.cfg bytes
    simpa only [exec, execDecode, ha.cfg] using this
  | consume dest now chunk => exact ha.endsAlike_execConsume dest h
  | push b =>
    obtain ⟨hc, p, hp, -⟩ := execPush_next h
    obtain ⟨v, hv, hrel⟩ := ha.push hc hp
    exact ⟨_, _, v, execPush_of_consuming hc hp, execPush_of_consuming (ha.consuming.trans hc) hv, hrel⟩
  | opselReserved sel => cases h
  | tagFeedback use => exact frameUse _ use
  | readTag use => exact frameUse _ use
  | readBlock use => exact frameUse _ use
  | writeBlock use => exact frameUse _ use
  | frameAny c use => exact frameUse c use
  | frameLayout1 c use =>
    have := ha.endsAlike_runFrameUse s.cfg.inLayout1 c use
    simpa only [exec, execFrameLayout1, ha.cfg] using this
  | rxFrame now frame => exact ha.endsAlike_execConsume .decoder h

/-- The same with the next state named. -/
theorem ActsAlike.exec_next {i : Instr} {t : State} (h : exec i s = .next t) :
    ∃ r s' u', t = s'.record r ∧ exec i u = .next (u'.record r) ∧ Q s' u' := by
  obtain ⟨r, s', u', hs, hu, hrel⟩ := ha.endsAlike_exec h
  exact ⟨r, s', u', by simpa [h] using hs, hu, hrel⟩

end alike

/-- What an operation can do to the state besides handing back its result. -/
inductive Effect (s : State) : State → Prop where
  | unchanged : Effect s s
  | draw : Effect s s.advanceDraws
  | reset : Effect s (s.setLen 0).forgetActivity
  | consume {now : Nat} {chunk : List Byte} {q : RsmResult} : consumeChunk now chunk s = .ok q → Effect s q.state
  | push {b : Byte} {p : PushResult} : s.consuming = true → pushByte b s = .ok p → Effect s p.state

/-- Everything an operation that answers has done: one of these effects, and one result. -/
theorem exec_next_effect {i : Instr} {s t : State} (h : exec i s = .next t) :
    ∃ r s', t = s'.record r ∧ Effect s s' := by
  have ha : ActsAlike (fun s' _ => Effect s s') s s :=
    { cfg := rfl, draws := rfl, consuming := rfl
      same := .unchanged
      drawn := .draw
      emptied := .reset
      consume := fun hq => ⟨_, hq, .consume hq⟩
      push := fun hc _ _ hp => ⟨_, hp, .push hc hp⟩ }
  obtain ⟨r, s', -, ht, -, he⟩ := ha.exec_next h
  exact ⟨r, s', ht, he⟩

/-! ### The state after reset -/

/-- Settles O2: every field of the reset state is written out in its definition. -/
theorem resetStateValues : Obligations.ResetStateValues :=
  ⟨rfl, rfl, Memory.read_nil, rfl, rfl, rfl, rfl, rfl, rfl, rfl, rfl, rfl, rfl⟩

/-- A state with an empty buffer memory and `len` = 0 meets the buffer's invariant: it has nothing to speak of. -/
theorem State.bufferInv_of_nil {s : State} (hb : s.buf = []) (hl : s.len = 0) : s.BufferInv where
  bufWf := hb ▸ Memory.wf_nil
  bufRange _ _ := hb ▸ rfl
  lenCap := hl ▸ Nat.zero_le _
  written i hi := by omega
  head0 h := by omega
  head1 h := by omega
  incomplete h := by simp [hl, checkFloor] at h

/-- Settles O3: at reset there is nothing in the buffer, and no CONSUME is under way. -/
theorem resetStateMeetsInvariant : Obligations.ResetStateMeetsInvariant :=
  ⟨(State.bufferInv_of_nil rfl rfl).inv_of_empty rfl, rfl⟩

/-! ### The invariant and the configuration -/

/-- The result trace is no part of the invariant. -/
theorem State.Inv.record {s : State} (h : s.Inv) (r : Result) : (s.record r).Inv := h.congr rfl rfl rfl rfl rfl

/-- Neither are the pending requests. -/
theorem State.Inv.setRequests {s : State} (h : s.Inv) (rs : List Request) : (s.setRequests rs).Inv :=
  h.congr rfl rfl rfl rfl rfl

/-- Between operations every operation that answers keeps the invariant, and ends between operations. -/
theorem exec_ready {i : Instr} {s t : State} (hs : s.Ready) (h : exec i s = .next t) : t.Ready := by
  obtain ⟨r, s', rfl, he⟩ := exec_next_effect h
  suffices hs' : s'.Ready from ⟨hs'.toInv.record r, hs'.idle⟩
  cases he with
  | unchanged => exact hs
  | draw => exact hs.congr rfl rfl rfl rfl rfl
  | reset =>
    have hb : (s.setLen 0).forgetActivity.BufferInv := hs.appending.emptied.congr rfl rfl rfl
    exact ⟨hb.inv_of_empty rfl, hs.idle⟩
  | consume hq => exact consumeChunk_ready hs hq
  | push hc _ => simp [hs.idle] at hc

/-- PUSH keeps the invariant: the CONSUME it is a step of is still under way. -/
theorem execPush_inv {b : Byte} {s t : State} (hs : s.Inv) (h : execPush b s = .next t) : t.Inv := by
  obtain ⟨hc, p, hp, rfl⟩ := execPush_next h
  have hb := pushByte_inv hs.toBufferInv hp
  exact (hb.inv_of_consuming ((pushByte_frame hp).consuming.trans hc)).record _

/-- Settles O50: a step that answers is idle, or a PUSH inside a CONSUME, or an operation between operations. -/
theorem stepKeepsInvariant : Obligations.StepKeepsInvariant := by
  refine ⟨fun s t hs h => ?_, fun s t hs h => ?_⟩
  · obtain ⟨-, rfl⟩ | ⟨r, rest, i, -, -, hc | ⟨b, rfl⟩, he⟩ := step_next_cases h
    · exact hs
    · exact (exec_ready ⟨hs.setRequests rest, hc⟩ he).toInv
    · exact execPush_inv (hs.setRequests rest) he
  · obtain ⟨-, rfl⟩ | ⟨r, rest, i, -, -, -, he⟩ := step_next_cases h
    · exact hs
    · exact exec_ready ⟨hs.setRequests rest, hs.idle⟩ he

/-- No operation changes the configuration. -/
theorem exec_cfg {i : Instr} {s t : State} (h : exec i s = .next t) : t.cfg = s.cfg := by
  obtain ⟨r, s', rfl, he⟩ := exec_next_effect h
  rw [State.record_cfg]
  cases he with
  | unchanged => rfl
  | draw => rfl
  | reset => rfl
  | consume hq => exact (consumeChunk_frame hq).1
  | push _ hp => exact (pushByte_frame hp).cfg

/-- Settles O52: an idle step changes nothing, and any other runs an operation. -/
theorem configurationNeverChanges : Obligations.ConfigurationNeverChanges := by
  intro s t h
  obtain ⟨-, rfl⟩ | ⟨r, rest, i, -, -, -, he⟩ := step_next_cases h
  · rfl
  · exact (exec_cfg he).trans (State.setRequests_cfg s rest)

/-! ### Bytes at or above the fill count -/

/-- Two states that differ only in bytes at or above `len` do alike, and differ only in such bytes again. -/
theorem SameBelow.actsAlike {s u : State} (h : SameBelow s u) : ActsAlike SameBelow s u where
  cfg := h.cfg
  draws := h.draws
  consuming := h.consuming
  same := h
  drawn := { h with draws := congrArg (· + 1) h.draws }
  emptied := { h with len := rfl, stamped := rfl, read := fun k hk => absurd hk (Nat.not_lt_zero k) }
  consume hq := sameBelow_consumeChunk h hq
  push _ _ _ hp := sameBelow_pushByte h hp

/-- Settles O57: the two states are in `SameBelow`, and every operation keeps them there. -/
theorem bytesAboveFillCountAreNeverRead : Obligations.BytesAboveFillCountAreNeverRead := by
  intro i s t m _ _ hm h
  have hsame : SameBelow s { s with buf := m } := ⟨rfl, rfl, rfl, rfl, rfl, rfl, rfl, rfl, hm⟩
  obtain ⟨r, s', u', rfl, hu, hrel⟩ := hsame.actsAlike.exec_next h
  exact ⟨_, hu, congrArg (· ++ [r]) hrel.results, hrel.len, hrel.lastActivity, hrel.stamped, hrel.consuming,
    hrel.draws, hrel.read⟩

/-! ### Earlier results and pending requests -/

/-- PUSH from a state with the same configuration and buffer does the same, and leaves that state's other fields. -/
theorem pushByte_of_sameBuffer {b : Byte} {s u : State} {p : PushResult} (hp : pushByte b s = .ok p)
    (hc : u.cfg = s.cfg) (hb : u.buf = s.buf) (hl : u.len = s.len) :
    pushByte b u = .ok ⟨p.state.withRest u, p.frame, p.event⟩ := by
  have hu : u = s.withRest u := by apply State.eq_of_fields <;> simp [hc, hb, hl]
  rw [hu, pushByte_withRest, hp]
  rfl

/-- A run of PUSHes likewise. -/
theorem pushBytes_of_sameBuffer {l : List Byte} {s u : State} {r : RsmResult} (hr : pushBytes l s = .ok r)
    (hc : u.cfg = s.cfg) (hb : u.buf = s.buf) (hl : u.len = s.len) :
    pushBytes l u = .ok ⟨r.state.withRest u, r.frames, r.events⟩ := by
  have hu : u = s.withRest u := by apply State.eq_of_fields <;> simp [hc, hb, hl]
  rw [hu, pushBytes_withRest, hr]
  rfl

/-- The state with another trace of results and other pending requests. -/
def State.withTrace (s : State) (rs : List Result) (qs : List Request) : State :=
  { s with results := rs, requests := qs }

/-- What a PUSH leaves keeps another trace and queue. -/
theorem SameButBuffer.withRest_withTrace {s t : State} (h : SameButBuffer s t) (rs : List Result) (qs : List Request) :
    t.withRest (s.withTrace rs qs) = t.withTrace rs qs := by
  apply State.eq_of_fields <;> simp [State.withTrace, h.lastActivity, h.stamped, h.consuming, h.draws]

/-- A run of PUSHes neither reads nor writes the trace and the queue. -/
theorem pushBytes_withTrace {l : List Byte} {s : State} {r : RsmResult} (hr : pushBytes l s = .ok r)
    (rs : List Result) (qs : List Request) :
    pushBytes l (s.withTrace rs qs) = .ok ⟨r.state.withTrace rs qs, r.frames, r.events⟩ := by
  have hp := pushBytes_of_sameBuffer hr (u := s.withTrace rs qs) rfl rfl rfl
  rwa [(pushBytes_frame hr).withRest_withTrace] at hp

/-- Neither does the staleness check. -/
theorem stalenessCheck_withTrace (now : Nat) (s : State) (rs : List Result) (qs : List Request) :
    stalenessCheck now (s.withTrace rs qs) = ((stalenessCheck now s).1.withTrace rs qs, (stalenessCheck now s).2) := by
  have hc : clockInOrder now (s.withTrace rs qs) = clockInOrder now s := rfl
  have hs : isStale now (s.withTrace rs qs) = isStale now s := rfl
  have hl : (s.withTrace rs qs).len = s.len := rfl
  unfold stalenessCheck
  rw [hc, hs, hl]
  split
  · rfl
  · cases clockInOrder now s <;> cases isStale now s <;> rfl

/-- Neither does CONSUME. -/
theorem consumeChunk_withTrace {now : Nat} {chunk : List Byte} {s : State} {q : RsmResult}
    (h : consumeChunk now chunk s = .ok q) (rs : List Result) (qs : List Request) :
    consumeChunk now chunk (s.withTrace rs qs) = .ok ⟨q.state.withTrace rs qs, q.frames, q.events⟩ := by
  obtain ⟨r, hr, rfl⟩ := consumeChunk_cases h
  have hs := stalenessCheck_withTrace now s rs qs
  have hp : pushBytes chunk (stalenessCheck now (s.withTrace rs qs)).1 =
      .ok ⟨r.state.withTrace rs qs, r.frames, r.events⟩ := hs ▸ pushBytes_withTrace hr rs qs
  rw [consumeChunk_of_pushes hp, hs]
  cases chunk <;> rfl

/-- With another trace and queue every operation does alike, and writes neither. -/
theorem actsAlike_withTrace (s : State) (rs : List Result) (qs : List Request) :
    ActsAlike (fun s' u' => s'.results = s.results ∧ u' = s'.withTrace rs qs) s (s.withTrace rs qs) where
  cfg := rfl
  draws := rfl
  consuming := rfl
  same := ⟨rfl, rfl⟩
  drawn := ⟨rfl, rfl⟩
  emptied := ⟨rfl, rfl⟩
  consume hq := ⟨_, consumeChunk_withTrace hq rs qs, (consumeChunk_frame hq).2.2, rfl⟩
  push _ _ _ hp := by
    have hf := pushByte_frame hp
    refine ⟨_, pushByte_of_sameBuffer hp (u := s.withTrace rs qs) rfl rfl rfl, hf.results, ?_⟩
    exact hf.withRest_withTrace rs qs

/-- Settles O55: the parts of every operation pass the other trace and queue on. -/
theorem earlierResultsAreNeverRead : Obligations.EarlierResultsAreNeverRead := by
  intro i s t rs qs h
  obtain ⟨r, s', _, rfl, hu, hres, rfl⟩ := (actsAlike_withTrace s rs qs).exec_next h
  exact ⟨r, congrArg (· ++ [r]) hres, hu⟩

/-! ### The timestamp before it is written, and while the buffer is empty -/

/-- The state with another value in the timestamp's place, which is not a write of it. -/
def State.withActivity (s : State) (x : Nat) : State := { s with lastActivity := x }

/-- What a PUSH leaves keeps another value in the timestamp's place. -/
theorem SameButBuffer.withRest_withActivity {s t : State} (h : SameButBuffer s t) (x : Nat) :
    t.withRest (s.withActivity x) = t.withActivity x := by
  apply State.eq_of_fields <;>
    simp [State.withActivity, h.stamped, h.consuming, h.requests, h.results, h.draws]

/-- With an empty buffer CONSUME does the same whatever the timestamp's value, which a non-empty chunk writes over. -/
theorem consumeChunk_withActivity {now : Nat} {chunk : List Byte} {s : State} {q : RsmResult} (h0 : s.len = 0)
    (h : consumeChunk now chunk s = .ok q) (x : Nat) :
    consumeChunk now chunk (s.withActivity x) =
      .ok ⟨if chunk = [] then q.state.withActivity x else q.state, q.frames, q.events⟩ := by
  obtain ⟨r, hr, rfl⟩ := consumeChunk_cases h
  rw [stalenessCheck_none (.inl h0)] at hr ⊢
  have hp := pushBytes_of_sameBuffer hr (u := s.withActivity x) rfl rfl rfl
  rw [(pushBytes_frame hr).withRest_withActivity] at hp
  have hx : NoStaleGap now (s.withActivity x) := .inl h0
  rw [consumeChunk_of_noStaleGap hx hp]
  cases chunk <;> rfl

/-- Settles O58: with `len` = 0 the staleness check reads nothing, and a non-empty chunk writes the timestamp. -/
theorem timestampUnreadWhileEmpty : Obligations.TimestampUnreadWhileEmpty := by
  intro s x dest now chunk hs h0 hne
  obtain ⟨q, hq, -⟩ := consumeChunk_total now chunk hs.toBufferInv
  have hx := consumeChunk_withActivity h0 hq x
  rw [if_neg hne] at hx
  obtain ⟨r, hs, hu⟩ := execConsume_alike dest hq hx rfl
  exact ⟨_, hs, hu⟩

/-- What two runs that differ only in the value of an unwritten timestamp, `a` in the one and `x` in the other, have
come to: one state, where the timestamp has been written since, or states that differ as before. -/
def ActivityUnread (a x : Nat) (t v : State) : Prop :=
  (t.stamped = true ∧ v = t) ∨ (t.stamped = false ∧ t.lastActivity = a ∧ v = t.withActivity x)

/-- One more result on both sides leaves the runs as they were. -/
theorem ActivityUnread.record {a x : Nat} {t v : State} (h : ActivityUnread a x t v) (r : Result) :
    ActivityUnread a x (t.record r) (v.record r) := by
  obtain ⟨hs, rfl⟩ | ⟨hs, ha, rfl⟩ := h
  · exact .inl ⟨hs, rfl⟩
  · exact .inr ⟨hs, ha, rfl⟩

/-- PUSH never reads or writes the timestamp. -/
theorem pushByte_activityUnread {b : Byte} {s : State} {p : PushResult} (hst : s.stamped = false)
    (hp : pushByte b s = .ok p) (x : Nat) : ∃ v, pushByte b (s.withActivity x) = .ok ⟨v, p.frame, p.event⟩ ∧
      ActivityUnread s.lastActivity x p.state v := by
  have hf := pushByte_frame hp
  refine ⟨_, pushByte_of_sameBuffer hp (u := s.withActivity x) rfl rfl rfl, .inr ⟨hf.stamped.trans hst, ?_⟩⟩
  exact ⟨hf.lastActivity, hf.withRest_withActivity x⟩

/-- With an empty buffer CONSUME does not read an unwritten timestamp; it writes it if the chunk is not empty. -/
theorem consumeChunk_activityUnread {now : Nat} {chunk : List Byte} {s : State} {q : RsmResult} (h0 : s.len = 0)
    (hst : s.stamped = false) (hq : consumeChunk now chunk s = .ok q) (x : Nat) :
    ∃ v, consumeChunk now chunk (s.withActivity x) = .ok ⟨v, q.frames, q.events⟩ ∧
      ActivityUnread s.lastActivity x q.state v := by
  refine ⟨_, consumeChunk_withActivity h0 hq x, ?_⟩
  obtain ⟨r, hr, rfl⟩ := consumeChunk_cases hq
  cases chunk with
  | nil =>
    obtain rfl : _ = r := Except.ok.inj hr
    rw [stalenessCheck_none (.inl h0)]
    exact .inr ⟨hst, rfl, rfl⟩
  | cons b bs => exact .inl ⟨rfl, rfl⟩

/-- Between operations a timestamp nothing has written is read by no operation, since the buffer is then empty. -/
theorem State.Ready.actsAlike_withActivity {s : State} (hs : s.Ready) (hst : s.stamped = false) (x : Nat) :
    ActsAlike (ActivityUnread s.lastActivity x) s (s.withActivity x) where
  cfg := rfl
  draws := rfl
  consuming := rfl
  same := .inr ⟨hst, rfl, rfl⟩
  drawn := .inr ⟨hst, rfl, rfl⟩
  emptied := .inr ⟨rfl, rfl, rfl⟩
  consume hq := consumeChunk_activityUnread (hs.empty_of_unstamped hst) hst hq x
  push _ _ _ hp := pushByte_activityUnread hst hp x

/-- An operation that overlaps no CONSUME does not read an unwritten timestamp. -/
theorem exec_activityUnread {i : Instr} {s t : State} (hs : s.Inv) (hst : s.stamped = false)
    (hi : s.consuming = false ∨ ∃ b, i = .push b) (h : exec i s = .next t) (x : Nat) :
    ∃ v, exec i (s.withActivity x) = .next v ∧ ActivityUnread s.lastActivity x t v := by
  obtain hc | ⟨b, rfl⟩ := hi
  · have hr : s.Ready := ⟨hs, hc⟩
    obtain ⟨r, s', u', rfl, hu, hrel⟩ := (hr.actsAlike_withActivity hst x).exec_next h
    exact ⟨_, hu, hrel.record r⟩
  · obtain ⟨hc, p, hp, rfl⟩ := execPush_next h
    obtain ⟨v, hv, hrel⟩ := pushByte_activityUnread hst hp x
    exact ⟨_, execPush_of_consuming (s := s.withActivity x) hc hv, hrel.record _⟩

/-- CONSUME and RXPATH are never refused. -/
theorem execConsume_not_refused (dest : RxDest) (now : Nat) (chunk : List Byte) (s : State) (r : Refusal) :
    execConsume dest now chunk s ≠ .refused r := by
  intro h
  cases hq : consumeChunk now chunk s with
  | error f => cases dest <;> simp [execConsume, receiveChunk, hq] at h
  | ok q =>
    obtain ⟨x, hx, -⟩ := execConsume_alike dest hq hq rfl
    simp [hx] at h

/-- A frame row is never refused. -/
theorem runFrameUse_not_refused (cfg : Config) (c : Byte) (use : FrameUse) (s : State) (r : Refusal) :
    runFrameUse cfg c use s ≠ .refused r := by
  obtain ⟨x, h | h⟩ := runFrameUse_spec cfg c use s <;> simp [h]

/-- A refusal of an operation looks at nothing of the state but whether a CONSUME is under way. -/
theorem exec_refused_congr {i : Instr} {s u : State} {r : Refusal} (h : exec i s = .refused r)
    (hc : u.consuming = s.consuming) : exec i u = .refused r := by
  have frameUse : ∀ {cfg c use}, runFrameUse cfg c use s = .refused r → exec i u = .refused r :=
    fun h => (runFrameUse_not_refused _ _ _ _ _ h).elim
  -- ENCODE and DECODE are what a frame row runs to build and to read, DECODE the same for every command.
  cases i with
  | reset => cases h
  | crc16 bytes start stop =>
    simp only [exec, execCrc16] at h ⊢
    split at h
    · cases h
    · rw [if_neg ‹_›]; simpa using h
  | encode dest p c ps => exact frameUse (cfg := s.cfg) (c := c) (use := .build dest p ps) h
  | decode bytes => exact frameUse (cfg := s.cfg) (c := 0) (use := .read bytes) h
  | consume dest now chunk => exact (execConsume_not_refused _ _ _ _ _ h).elim
  | push b =>
    simp only [exec, execPush, hc] at h ⊢
    split at h
    · split at h <;> cases h
    · rw [if_neg ‹_›]; simpa using h
  | opselReserved sel => exact h
  | tagFeedback use => exact frameUse h
  | readTag use => exact frameUse h
  | readBlock use => exact frameUse h
  | writeBlock use => exact frameUse h
  | frameAny c use => exact frameUse h
  | frameLayout1 c use => exact frameUse h
  | rxFrame now frame => exact (execConsume_not_refused .decoder _ _ _ _ h).elim

/-- A step that is refused is refused whatever value the timestamp has. -/
theorem step_refused_withActivity {s : State} {r : Refusal} (h : step s = .refused r) (x : Nat) :
    step (s.withActivity x) = .refused r := by
  have hreq : (s.withActivity x).requests = s.requests := rfl
  have hov : ∀ i, overlaps i (s.withActivity x) = overlaps i s := fun _ => rfl
  unfold step at h ⊢
  rw [hreq]
  split at h
  · cases h
  · split at h
    · simp only [hov]
      split at h
      · rw [if_pos ‹_›]; exact h
      · rw [if_neg ‹_›]; exact exec_refused_congr h rfl
    · exact h

/-- A step that answers does not read an unwritten timestamp. -/
theorem step_activityUnread {s t : State} (hs : s.Inv) (hst : s.stamped = false) (h : step s = .next t) (x : Nat) :
    ∃ v, step (s.withActivity x) = .next v ∧ ActivityUnread s.lastActivity x t v := by
  obtain ⟨hr, rfl⟩ | ⟨r, rest, i, hr, hi, hc, he⟩ := step_next_cases h
  · exact ⟨_, by simp [step, State.withActivity, hr], .inr ⟨hst, rfl, rfl⟩⟩
  · have ho : overlaps i (s.withActivity x) = false := by
      obtain hc | ⟨b, rfl⟩ := hc
      · exact overlaps_idle hc
      · exact overlaps_push b _
    obtain ⟨v, hv, hrel⟩ := exec_activityUnread (hs.setRequests rest) hst hc he x
    have hr' : (s.withActivity x).requests = r :: rest := hr
    exact ⟨v, (step_of_decoded hr' hi ho).trans hv, hrel⟩

/-- Settles O60: inside a CONSUME only PUSH runs, which never reads the timestamp; between operations R23 (e) leaves
the buffer empty where nothing has written it. -/
theorem unwrittenTimestampIsNeverRead : Obligations.UnwrittenTimestampIsNeverRead := by
  refine fun s x hs hst => ⟨fun t h => ?_, fun r h => step_refused_withActivity h x⟩
  obtain ⟨v, hv, ⟨ht, rfl⟩ | ⟨ht, hla, rfl⟩⟩ := step_activityUnread hs hst h x
  · exact .inl ⟨ht, hv⟩
  · exact .inr ⟨ht, hla, hv⟩

end Sys2Proof.Machine
end

section
/-! PROOFS. The statement about the checked accesses of the buffer (20_memory.md R56): from a state that meets the
invariant no operation faults. Only CONSUME, its receive path and PUSH access the buffer, and those are total under the
buffer's invariant; DECODE accesses nothing but its operand, and its checks keep it inside. -/

namespace Sys2Proof.Machine

/-- A frame row never faults: DECODE reads inside a frame that passed its checks, and ENCODE reads nothing by address. -/
theorem runFrameUse_safe (cfg : Config) (c : Byte) (use : FrameUse) (s : State) :
    SafeOutcome (runFrameUse cfg c use s) = true := by
  obtain ⟨r, h | h⟩ := runFrameUse_spec cfg c use s <;> rw [h] <;> rfl

/-- CONSUME and RXPATH never fault under the buffer's invariant. -/
theorem State.BufferInv.execConsume_safe {s : State} (hs : s.BufferInv) (dest : RxDest) (now : Nat)
    (chunk : List Byte) : SafeOutcome (execConsume dest now chunk s) = true := by
  obtain ⟨q, hq, -⟩ := consumeChunk_total now chunk hs
  obtain ⟨x, hx, -⟩ := execConsume_alike dest hq hq rfl
  rw [hx]
  rfl

/-- PUSH never faults under the buffer's invariant: inside a CONSUME it answers, outside one it is refused. -/
theorem State.BufferInv.execPush_safe {s : State} (hs : s.BufferInv) (b : Byte) :
    SafeOutcome (execPush b s) = true := by
  by_cases hc : s.consuming = true
  · obtain ⟨p, hp⟩ := pushByte_total b hs
    rw [execPush_of_consuming hc hp]
    rfl
  · unfold execPush
    rw [if_neg hc]
    rfl

/-- CRC16 never faults: it answers, or refuses a range that leaves the bytes. -/
theorem execCrc16_safe (bytes : List Byte) (start stop : Nat) (s : State) :
    SafeOutcome (execCrc16 bytes start stop s) = true := by
  unfold execCrc16
  split <;> rfl

/-- No operation faults under the buffer's invariant, whether a CONSUME is under way or not. -/
theorem State.BufferInv.exec_safe {s : State} (hs : s.BufferInv) (i : Instr) : SafeOutcome (exec i s) = true := by
  -- ENCODE and DECODE are what a frame row runs to build and to read, DECODE the same for every command.
  cases i with
  | reset => rfl
  | crc16 bytes start stop => exact execCrc16_safe bytes start stop s
  | encode dest p c ps => exact runFrameUse_safe s.cfg c (.build dest p ps) s
  | decode bytes => exact runFrameUse_safe s.cfg 0 (.read bytes) s
  | consume dest now chunk => exact hs.execConsume_safe dest now chunk
  | push b => exact hs.execPush_safe b
  | opselReserved sel => rfl
  | tagFeedback use => exact runFrameUse_safe _ _ use s
  | readTag use => exact runFrameUse_safe _ _ use s
  | readBlock use => exact runFrameUse_safe _ _ use s
  | writeBlock use => exact runFrameUse_safe _ _ use s
  | frameAny c use => exact runFrameUse_safe _ c use s
  | frameLayout1 c use => exact runFrameUse_safe _ c use s
  | rxFrame now frame => exact hs.execConsume_safe .decoder now frame

/-- Settles O51: a step is idle, or refuses its request, or runs an operation, which does not fault. -/
theorem stepNeverStuck : Obligations.StepNeverStuck := by
  intro s hs
  unfold step
  split
  · rfl
  · rename_i r rest _
    split
    · split
      · rfl
      · exact (hs.setRequests rest).exec_safe _
    · rfl

end Sys2Proof.Machine
end

section
/-! PROOFS. The statements about the encoding (30_encoding.md R70, R77): the decoder reads back what the encoder wrote,
accepts nothing but well-formed operations, and reads the frame that ENCODE returns as a frame of its own row; reserved
select codes and a PUSH from outside are refused. First what the decoder answers, format by format: for frame formats
one `_ok_iff` lemma each, from which both directions are read off. -/

namespace Sys2Proof

open Laws.TableMatch (frame0Match_self frame1Match_self frameRequest_format mask_ones)

/-! ### Format OP -/

/-- A request of format OP is decoded by its select code. -/
theorem decodeRequest_opRequest {sel : Nat} (h : sel < 256) (operands : List Operand) :
    decodeRequest (opRequest sel operands) = decodeOp sel operands := by
  have hb : (BitVec.ofNat 8 sel).toNat = sel := by rw [BitVec.toNat_ofNat, Nat.mod_eq_of_lt h]
  simp only [decodeRequest, opRequest, hb]

/-- The select codes from 5 to 15 are none of the five that have an operation of their own. -/
theorem decodeOp_reserved {sel : Nat} (h5 : 5 ≤ sel) (h16 : sel < 16) :
    decodeOp sel [] = .ok (.opselReserved (BitVec.ofNat 4 sel)) := by
  have hne : ∀ k < 5, sel ≠ k := fun k hk => by omega
  unfold decodeOp
  rw [if_neg (hne opselReset (by decide)), if_neg (hne opselCrc16 (by decide)), if_neg (hne opselEncode (by decide)),
    if_neg (hne opselDecode (by decide)), if_neg (hne opselConsume (by decide)), if_pos h16]

/-- A reserved select code by itself is OPSEL_RESERVED (30_encoding.md R77). -/
theorem decodeRequest_reserved {sel : BitVec 4} (h : 5 ≤ sel.toNat) :
    decodeRequest (opRequest sel.toNat []) = .ok (.opselReserved sel) := by
  have hlt := sel.isLt
  rw [decodeRequest_opRequest (by omega), decodeOp_reserved h hlt, BitVec.ofNat_toNat, BitVec.setWidth_eq]

/-- The table word of a reserved select code has no operands. -/
theorem tableRequest_reserved {sel : BitVec 4} (h : 5 ≤ sel.toNat) :
    tableRequest 8 sel.toNat = opRequest sel.toNat [] := by
  have hne : ∀ k < 5, sel.toNat ≠ k := fun k hk => by omega
  have hz : zeroOperands sel.toNat = [] := by
    unfold zeroOperands
    rw [if_neg (hne opselCrc16 (by decide)), if_neg (hne opselEncode (by decide)),
      if_neg (hne opselDecode (by decide)), if_neg (hne opselConsume (by decide))]
  have hlt := sel.isLt
  simp [tableRequest, hlt, hz]

/-- The table word of a reserved select code is OPSEL_RESERVED with that code. -/
theorem decodeTableWord_reserved {sel : BitVec 4} (h : 5 ≤ sel.toNat) :
    decodeTableWord 8 sel.toNat = some (.opselReserved sel) := by
  simp only [decodeTableWord, tableRequest_reserved h, decodeRequest_reserved h]

/-- An operation read from a select code is well-formed: the only one restricted is OPSEL_RESERVED, and its code is none
of the five before. -/
theorem decodeOp_wf {sel : Nat} {operands : List Operand} {i : Instr} (h : decodeOp sel operands = .ok i) :
    i.wf = true := by
  unfold decodeOp at h
  iterate 5
    split at h
    · split at h <;> cases h <;> rfl
  rename_i h0 h1 h2 h3 h4
  split at h
  · split at h
    · cases h
      simp only [opselReset, opselCrc16, opselEncode, opselDecode, opselConsume] at h0 h1 h2 h3 h4
      simp only [Instr.wf, opselFirstReserved, BitVec.toNat_ofNat, decide_eq_true_eq]
      omega
    · cases h
  · cases h

/-! ### The frame rows -/

/-- What matches a mask matches any part of it, the mask and the pattern cut alike. -/
theorem maskMatch_cut {m p w : List Byte} (h : maskMatch m p w = true) (d : List Byte) :
    maskMatch (List.zipWith (· &&& ·) m d) (List.zipWith (· &&& ·) p d) w = true := by
  induction m generalizing p w d with
  | nil =>
    cases p with
    | nil => rfl
    | cons y p => simp [maskMatch] at h
  | cons x m ih =>
    cases p with
    | nil => simp [maskMatch] at h
    | cons y p =>
      cases w with
      | nil => simp [maskMatch] at h
      | cons z w =>
        simp only [maskMatch, Bool.and_eq_true, beq_iff_eq] at h
        obtain ⟨hz, hw⟩ := h
        cases d with
        | nil => rfl
        | cons u d =>
          have hcut : z &&& (x &&& u) = y &&& u := by rw [← BitVec.and_assoc, hz]
          simp [maskMatch, hcut, ih hw d]

/-- What matches a FRAME0 row's mask matches what the receive side can rely on of it (30_encoding.md R75). -/
theorem frame0_receive_of_mask {c : Byte} {w : List Byte} (h : maskMatch frame0Mask (frame0Match c) w = true) :
    maskMatch frame0DecodeMask (frame0DecodeMatch c) w = true := by
  have hp : List.zipWith (· &&& ·) (frame0Match c) frame0DecodeMask = frame0DecodeMatch c := by
    simp [frame0Match, frame0DecodeMask, frame0DecodeMatch, mask_ones]
  exact hp ▸ maskMatch_cut h frame0DecodeMask

/-- The use read from a frame word fits the row: a received frame was tested for it. -/
theorem decodeFrameUse_fits {mask pattern decodeMask decodePattern word : List Byte} {operands : List Operand}
    {use : FrameUse} (h : decodeFrameUse mask pattern decodeMask decodePattern word operands = .ok use) :
    use.fits decodeMask decodePattern = true := by
  unfold decodeFrameUse at h
  split at h
  · split at h
    · cases h; assumption
    · cases h
  · split at h <;> cases h; rfl
  · split at h <;> cases h; rfl
  · cases h

/-- The request of a row whose match word matches itself is decoded to the use it was made from. -/
theorem decodeFrameUse_frameRequest {mask pattern decodeMask decodePattern : List Byte} {use : FrameUse}
    (format : Format) (hlen : pattern.length = mask.length) (hself : maskMatch mask pattern pattern = true)
    (h : use.fits decodeMask decodePattern = true) :
    decodeFrameUse mask pattern decodeMask decodePattern (frameRequest format pattern use).word
      (frameRequest format pattern use).operands = .ok use := by
  cases use with
  | read bytes => exact if_pos h
  | build dest p ps =>
    cases dest with
    | caller => exact if_pos ⟨hlen, hself⟩
    | transport r => exact if_pos ⟨hlen, hself⟩

/-- What format FRAME0 decodes to: the row of the command byte, with the use its masks give. -/
theorem decodeFrame0_ok_iff {word : List Byte} {operands : List Operand} {i : Instr} :
    decodeFrame0 word operands = .ok i ↔
      ∃ cc use, byteAt word Layout.layout0.commandAt = some cc ∧
        decodeFrameUse frame0Mask (frame0Match cc) frame0DecodeMask (frame0DecodeMatch cc) word operands = .ok use ∧
        frame0Row cc use = i := by
  unfold decodeFrame0
  cases byteAt word Layout.layout0.commandAt with
  | none => simp
  | some cc =>
    cases hu : decodeFrameUse frame0Mask (frame0Match cc) frame0DecodeMask (frame0DecodeMatch cc) word operands <;>
      simp [hu]

/-- What format FRAME1 decodes to: FRAME_LAYOUT1 with the command byte and the use its masks give. -/
theorem decodeFrame1_ok_iff {word : List Byte} {operands : List Operand} {i : Instr} :
    decodeFrame1 word operands = .ok i ↔
      ∃ cc use, byteAt word Layout.layout1.commandAt = some cc ∧
        decodeFrameUse frame1Mask (frame1Match cc) frame1DecodeMask (frame1DecodeMatch cc) word operands = .ok use ∧
        .frameLayout1 cc use = i := by
  unfold decodeFrame1
  cases byteAt word Layout.layout1.commandAt with
  | none => simp
  | some cc =>
    cases hu : decodeFrameUse frame1Mask (frame1Match cc) frame1DecodeMask (frame1DecodeMatch cc) word operands <;>
      simp [hu]

/-- The request of a FRAME0 row is decoded to the row of its command. -/
theorem decodeRequest_frame0 {cc : Byte} {use : FrameUse}
    (h : use.fits frame0DecodeMask (frame0DecodeMatch cc) = true) :
    decodeRequest (frameRequest .frame0 (frame0Match cc) use) = .ok (frame0Row cc use) := by
  have hcc : byteAt (frameRequest .frame0 (frame0Match cc) use).word Layout.layout0.commandAt = some cc := by
    cases use with
    | build dest p ps => rfl
    | read bytes => exact frame0_command h
  simp only [decodeRequest, frameRequest_format]
  exact decodeFrame0_ok_iff.mpr ⟨cc, use, hcc, decodeFrameUse_frameRequest _ rfl (frame0Match_self cc) h, rfl⟩

/-- The request of FRAME_LAYOUT1 is decoded to it, with its command. -/
theorem decodeRequest_frame1 {cc : Byte} {use : FrameUse}
    (h : use.fits frame1DecodeMask (frame1DecodeMatch cc) = true) :
    decodeRequest (frameRequest .frame1 (frame1Match cc) use) = .ok (.frameLayout1 cc use) := by
  have hcc : byteAt (frameRequest .frame1 (frame1Match cc) use).word Layout.layout1.commandAt = some cc := by
    cases use with
    | build dest p ps => rfl
    | read bytes => exact frame1_command h
  simp only [decodeRequest, frameRequest_format]
  exact decodeFrame1_ok_iff.mpr ⟨cc, use, hcc, decodeFrameUse_frameRequest _ rfl (frame1Match_self cc) h, rfl⟩

/-- A command that is not named has the row FRAME_ANY (41_frame_codec.md R126). -/
theorem frame0Row_of_not_named {cc : Byte} (h : namedCommands.contains cc = false) (use : FrameUse) :
    frame0Row cc use = .frameAny cc use := by
  simp only [namedCommands, List.contains_eq_mem, List.mem_cons, List.not_mem_nil, or_false,
    decide_eq_false_iff_not, not_or] at h
  obtain ⟨h15, h16, h70, h71⟩ := h
  unfold frame0Row
  rw [if_neg h15, if_neg h16, if_neg h70, if_neg h71]

/-- The row of a command is well-formed exactly on the uses that fit it. -/
theorem frame0Row_wf (cc : Byte) (use : FrameUse) :
    (frame0Row cc use).wf = use.fits frame0DecodeMask (frame0DecodeMatch cc) := by
  by_cases h : namedCommands.contains cc = true
  · simp only [namedCommands, List.contains_eq_mem, List.mem_cons, List.not_mem_nil, or_false,
      decide_eq_true_eq] at h
    obtain rfl | rfl | rfl | rfl := h <;> rfl
  · rw [Bool.not_eq_true] at h
    rw [frame0Row_of_not_named h, Instr.wf, h, Bool.not_false, Bool.true_and]

/-- A frame that arrives is decoded with its time, if it carries the marker. -/
theorem decodeFrameRx_ok_iff {word : List Byte} {operands : List Operand} {i : Instr} :
    decodeFrameRx word operands = .ok i ↔
      ∃ now, operands = [.num now] ∧ maskMatch rxMask rxMatch word = true ∧ .rxFrame now word = i := by
  unfold decodeFrameRx
  split
  · split <;> simp_all
  · rename_i h
    simp only [reduceCtorEq, false_iff]
    rintro ⟨now, ho, -⟩
    exact h now ho

/-! ### Decoder and encoder -/

/-- Settles O6: a select code is tested against the codes before it, and a frame row is found again by its command byte
and the pattern that well-formedness asks for. -/
theorem decodeOfEncodeIsSame : Obligations.DecodeOfEncodeIsSame := by
  intro i h
  cases i with
  | reset => rfl
  | crc16 bytes start stop => rfl
  | encode dest p c ps => cases dest <;> rfl
  | decode bytes => rfl
  | consume dest now chunk => cases dest <;> rfl
  | push b => rfl
  | opselReserved sel => exact decodeRequest_reserved (of_decide_eq_true h)
  | tagFeedback use => exact decodeRequest_frame0 h
  | readTag use => exact decodeRequest_frame0 h
  | readBlock use => exact decodeRequest_frame0 h
  | writeBlock use => exact decodeRequest_frame0 h
  | frameAny cc use =>
    simp only [Instr.wf, Bool.and_eq_true, Bool.not_eq_true'] at h
    obtain ⟨hn, hu⟩ := h
    rw [encodeInstr, decodeRequest_frame0 hu, frame0Row_of_not_named hn]
  | frameLayout1 cc use => exact decodeRequest_frame1 h
  | rxFrame now frame => exact decodeFrameRx_ok_iff.mpr ⟨now, rfl, h, rfl⟩

/-- Settles O7: whatever well-formedness asks of an operation, the decoder of its format has tested. -/
theorem decodedIsWellFormed : Obligations.DecodedIsWellFormed := by
  rintro ⟨format, word, operands⟩ i h
  cases format with
  | op =>
    simp only [decodeRequest] at h
    split at h
    · exact decodeOp_wf h
    · cases h
  | byte =>
    simp only [decodeRequest] at h
    split at h <;> cases h
    rfl
  | frame0 =>
    obtain ⟨cc, use, -, hu, rfl⟩ := decodeFrame0_ok_iff.mp h
    rw [frame0Row_wf]
    exact decodeFrameUse_fits hu
  | frame1 =>
    obtain ⟨cc, use, -, hu, rfl⟩ := decodeFrame1_ok_iff.mp h
    exact decodeFrameUse_fits hu
  | frameRx =>
    obtain ⟨now, -, hm, rfl⟩ := decodeFrameRx_ok_iff.mp h
    exact hm

/-- Settles O8: a reserved code decodes to OPSEL_RESERVED, whose meaning is the refusal. -/
theorem reservedSelectorsRefused : Obligations.ReservedSelectorsRefused :=
  fun _ h => ⟨decodeTableWord_reserved h, fun _ => rfl⟩

/-- Settles O5: the named codes are run, 0x5 and 0xF are reserved codes, and each header is its row's match word. -/
theorem specWordsDecode : Obligations.SpecWordsDecode :=
  ⟨rfl, rfl, rfl, rfl, rfl, decodeTableWord_reserved (sel := 5#4) (by decide),
    decodeTableWord_reserved (sel := 15#4) (by decide),
    decodeRequest_frame0 (cc := cmdReadTag) (use := .build .caller [] []) rfl,
    decodeRequest_frame0 (cc := cmdTagFeedback) (use := .build .caller [] []) rfl,
    decodeRequest_frame0 (cc := cmdReadBlock) (use := .build .caller [] []) rfl,
    decodeRequest_frame0 (cc := cmdWriteBlock) (use := .build .caller [] []) rfl⟩

end Sys2Proof

namespace Sys2Proof.Machine

open Laws.TableMatch (mask_ones)

/-! ### PUSH outside a CONSUME -/

/-- PUSH outside a CONSUME is refused (42_reassembler.md R132). -/
theorem execPush_of_idle {s : State} (h : s.consuming = false) (b : Byte) :
    execPush b s = .refused .pushOutsideConsume := by
  simp [execPush, h]

/-- Settles O59: the step takes the PUSH up, since it overlaps nothing, and PUSH itself is what is refused. -/
theorem pushOutsideConsumeIsRefused : Obligations.PushOutsideConsumeIsRefused := by
  refine fun s b hc => ⟨execPush_of_idle hc b, fun r rest hr hd => ?_⟩
  rw [step_of_decoded hr hd (overlaps_push b s)]
  exact execPush_of_idle (s := s.setRequests rest) hc b

/-! ### The frame that ENCODE returns -/

/-- ENCODE inside its precondition hands back the sent-first bytes and the frame, and changes nothing else. -/
theorem exec_encode_caller {s : State} {p : List Byte} {ps : List Byte} (c : Byte)
    (hn : ps.length ≤ s.cfg.layout.nMax) (hp : prefixTooLong s.cfg p.length = false) :
    exec (.encode .caller p c ps) s = .next (s.record (.encoded (p ++ buildFrame s.cfg c ps))) := by
  simp only [exec, execEncode, runEncode, encodeFrame_ok hn hp, finish_eq]

/-- Nothing ahead of the frame is within every PREFIX_MAX (41_frame_codec.md R101). -/
theorem prefixTooLong_zero (cfg : Config) : prefixTooLong cfg 0 = false := by
  unfold prefixTooLong
  split <;> simp

/-- CRC16 on a range inside the bytes hands back their checksum, and changes nothing else. -/
theorem exec_crc16_of_le {bytes : List Byte} (start : Nat) {stop : Nat} (h : stop ≤ bytes.length) (s : State) :
    exec (.crc16 bytes start stop) s = .next (s.record (.crc (crc16 bytes start stop))) := by
  simp [exec, execCrc16, crcRangeOk, h]

/-- A slice to the end of a sequence drops what stands before it. -/
theorem slice_to_end (s : List Byte) (a : Nat) : slice s a s.length = s.drop a :=
  List.take_of_length_le (by simp)

/-- A sequence followed by its own checksum, low byte first, has one checksum whatever it holds (40_crc.md R99). -/
theorem crcOf_append_wireBytes (m : List Byte) : crcOf (m ++ wireBytes (crcOf m)) = 0x0F47#16 := by
  have hreg : crcRegister (m ++ wireBytes (crcOf m)) = 0xF0B8#16 := by
    rw [crcRegister_append]
    exact crcByte_wire (crcRegister m)
  rw [crcOf, hreg]
  decide

/-- A built frame passes the residue test over everything after its head (30_encoding.md R65, 40_crc.md R99). -/
theorem crc16_buildFrame (cfg : Config) (c : Byte) (ps : List Byte) :
    crc16 (buildFrame cfg c ps) 2 (buildFrame cfg c ps).length = 0x0F47#16 := by
  have hbody : 2 ≤ (frameBody cfg c ps).length := by
    rw [frameBody_length]
    have := cfg.layout.eight_le_overhead
    omega
  rw [crc16, slice_to_end, buildFrame, List.drop_append_of_le_length hbody, crc16, slice_to_end]
  exact crcOf_append_wireBytes _

/-- The length byte stands at offset 2 of a built frame (30_encoding.md R61). -/
theorem buildFrame_lengthByte (cfg : Config) (c : Byte) (ps : List Byte) :
    (buildFrame cfg c ps)[2]? = some (BitVec.ofNat 8 (cfg.layout.overhead + ps.length)) := rfl

/-- A frame built in layout 0 starts with its row's header, the length byte apart (30_encoding.md R70). -/
theorem buildFrame_matches_frame0 {cfg : Config} (h : cfg.layout = .layout0) (c : Byte) (ps : List Byte) :
    maskMatch frame0Mask (frame0Match c) (buildFrame cfg c ps) = true := by
  simp [buildFrame, frameBody, signField, h, frame0Mask, frame0Match, maskMatch, mask_ones]

/-- Settles O16: the frame is `buildFrame`, of which the lemmas above say each clause. -/
theorem encodedFrameMatchesItsRow : Obligations.EncodedFrameMatchesItsRow := by
  intro s cc ps hl hn
  have hmax : ps.length ≤ s.cfg.layout.nMax := hl ▸ hn
  have hlen : (BitVec.ofNat 8 (s.cfg.layout.overhead + ps.length)).toNat = 8 + ps.length := by
    rw [lengthByte_toNat hmax, hl]; rfl
  have hsize : (buildFrame s.cfg cc ps).length = (8 + ps.length) + 3 := by
    rw [buildFrame_length, hl]; rfl
  have hmatch := buildFrame_matches_frame0 hl cc ps
  refine ⟨buildFrame s.cfg cc ps, exec_encode_caller cc hmax (prefixTooLong_zero _), hmatch,
    ⟨_, buildFrame_lengthByte s.cfg cc ps, hlen, by rw [hlen, hsize], ?_⟩,
    decodeRequest_frame0 (use := .read (buildFrame s.cfg cc ps)) (frame0_receive_of_mask hmatch)⟩
  rw [hlen, ← hsize, exec_crc16_of_le 2 le_rfl, crc16_buildFrame]
  rfl

end Sys2Proof.Machine
end

section
/-! PROOFS. The statements about the operation CRC16 (40_crc.md R92 to R99): its three cases of a range, that inside its
range it answers the bitwise procedure over the slice and nothing else, and the residue. The model's checksum is first
shown to be the procedure that the statements write out. -/

namespace Sys2Proof.Machine

open Spec (answered bitStep checksum)

/-! ### The bitwise procedure -/

/-- The model's bit steps are the statements' bit step, iterated (40_crc.md R93). -/
theorem crcSteps_eq_iterate (n : Nat) (c : Half) : crcSteps n c = bitStep^[n] c := by
  induction n generalizing c with
  | zero => rfl
  | succ n ih => exact ih (crcStep c)

/-- The model's checksum is the checksum that the statements write out (40_crc.md R92). -/
theorem crcOf_eq_checksum (bytes : List Byte) : crcOf bytes = checksum bytes := by
  have hbyte : crcByte = fun c b => bitStep^[8] (c ^^^ b.setWidth 16) :=
    funext₂ fun c b => crcSteps_eq_iterate 8 (c ^^^ zext16 b)
  rw [crcOf, crcRegister, hbyte]
  rfl

/-! ### The operation -/

/-- An answer of the statements is a result the model records. -/
theorem answered_eq_record (s : State) (r : Result) : answered s r = s.record r := rfl

/-- States that recorded a result each, and are the same, recorded the same one. -/
theorem State.record_inj {s : State} {r r' : Result} : s.record r = s.record r' ↔ r = r' := by
  simp [State.record]

/-- CRC16 on an empty range answers 0x0000, wherever the range lies (40_crc.md R95, R96). -/
theorem exec_crc16_of_empty (bytes : List Byte) {start stop : Nat} (h : stop ≤ start) (s : State) :
    exec (.crc16 bytes start stop) s = .next (s.record (.crc 0x0000#16)) := by
  simp [exec, execCrc16, crcRangeOk, h, crc16_empty]

/-- CRC16 on a non-empty range that leaves the bytes is refused (40_crc.md R96). -/
theorem exec_crc16_of_outside {bytes : List Byte} {start stop : Nat} (hne : start < stop) (hout : bytes.length < stop)
    (s : State) : exec (.crc16 bytes start stop) s = .refused (.crcRange start stop bytes.length) := by
  simp [exec, execCrc16, crcRangeOk, hne, hout]

/-- CRC16 over a whole sequence answers its checksum. -/
theorem exec_crc16_all {bytes : List Byte} {stop : Nat} (h : bytes.length = stop) (s : State) :
    exec (.crc16 bytes 0 stop) s = .next (s.record (.crc (crcOf bytes))) := by
  rw [exec_crc16_of_le 0 h.ge, crc16, slice_all h.le]

/-- Settles O9: the answer is the checksum of the slice, and the checksum is the bitwise procedure. -/
theorem crc16IsBitwiseProcedure : Obligations.Crc16IsBitwiseProcedure := by
  intro s bytes start stop _ hstop
  rw [exec_crc16_of_le start hstop, crc16, crcOf_eq_checksum]
  rfl

/-- Settles O10: one lemma above for each case of the range. -/
theorem crc16RangeCases : Obligations.Crc16RangeCases := fun s bytes start _ =>
  ⟨fun _ hstop => ⟨_, exec_crc16_of_le start hstop s⟩, fun h => exec_crc16_of_empty bytes h.le s,
    fun hne hout => exec_crc16_of_outside hne hout s⟩

/-- Settles O11: the range from `k` to `k` is empty. -/
theorem crc16EmptyRangeIsZero : Obligations.Crc16EmptyRangeIsZero :=
  fun s bytes _ => exec_crc16_of_empty bytes le_rfl s

/-- Settles O12: either run answers the checksum of the slice, of which the second takes the whole. -/
theorem crc16DependsOnSliceOnly : Obligations.Crc16DependsOnSliceOnly := by
  intro s bytes start stop _ hstop
  have hsize : (slice bytes start stop).length = stop - start := by rw [slice_length]; omega
  exact ⟨_, exec_crc16_of_le start hstop s, exec_crc16_all hsize s⟩

/-- Settles O13: the given result is the checksum of `m`, whose two bytes on the wire are the ones appended. -/
theorem crc16ResidueIsConstant : Obligations.Crc16ResidueIsConstant := by
  intro s m c h
  rw [exec_crc16_all rfl, answered_eq_record, Host.Outcome.next.injEq, State.record_inj, Result.crc.injEq] at h
  subst h
  rw [← lo8_eq_ofNat, ← hi8_eq_ofNat, ← wireBytes, exec_crc16_all (by simp), crcOf_append_wireBytes,
    answered_eq_record]

end Sys2Proof.Machine
end

section
/-! PROOFS. The statements about the frame codec (41_frame_codec.md) and R127 of the receive path. First that the
statements' frame is the frame ENC builds and what ENC answers; then that DEC answers the one record whose fields stand
at the positions of R112, from which the round trip, the trailing bytes and the checksum bytes follow by exhibiting that
record. -/

namespace Sys2Proof.Spec

open Sys2Proof.Machine

/-! ### The statements' terms and the model's -/

theorem signBytes_eq (cfg : Config) : signBytes cfg = cfg.layout.signBytes := by
  unfold signBytes; cases cfg.layout <;> rfl

/-- N_MAX is 247 - SIGN_BYTES (41_frame_codec.md R101). -/
theorem nMax_eq (cfg : Config) : cfg.layout.nMax = 247 - signBytes cfg := by
  unfold signBytes; cases cfg.layout <;> rfl

/-- The model's test of PREFIX_MAX is the statements'. -/
theorem prefixTooLong_eq_false_iff {cfg : Config} {p : List Byte} :
    prefixTooLong cfg p.length = false ↔ PrefixFits cfg p := by
  unfold prefixTooLong PrefixFits
  cases cfg.prefixMax with
  | none => simp
  | some m => simp

theorem frameBody_eq (cfg : Config) (cc : Byte) (ps : List Byte) :
    frameBody cfg cc ps = frameHeadToParameters (sign cfg) cc ps := by
  unfold frameBody signField sign
  cases cfg.layout <;> rfl

/-- The checksum ENC appends is the procedure over everything after the head (30_encoding.md R65). -/
theorem crc16_frameBody (cfg : Config) (cc : Byte) (ps : List Byte) :
    crc16 (frameBody cfg cc ps) 2 (frameBody cfg cc ps).length = frameChecksum (sign cfg) cc ps := by
  rw [crc16, slice_to_end, crcOf_eq_checksum, frameBody_eq, frameChecksum]

/-- The frame ENC builds ends in its checksum, low byte first (20_memory.md R42). -/
theorem buildFrame_eq_append (cfg : Config) (cc : Byte) (ps : List Byte) :
    buildFrame cfg cc ps = frameBody cfg cc ps ++ wireBytes (frameChecksum (sign cfg) cc ps) := by
  rw [buildFrame, crc16_frameBody]

/-- The frame ENC builds is the frame the statements write out. -/
theorem buildFrame_eq_frame (cfg : Config) (cc : Byte) (ps : List Byte) :
    buildFrame cfg cc ps = frame (sign cfg) cc ps := by
  rw [buildFrame_eq_append, frameBody_eq, wireBytes, lo8_eq_ofNat, hi8_eq_ofNat, frame]

/-- What DECODE's checks accept, in the statements' terms (41_frame_codec.md R111). -/
theorem checkFrame_eq_none_iff {cfg : Config} {bytes : List Byte} :
    checkFrame cfg bytes = none ↔ ∃ l, Accepted (signBytes cfg) bytes l := by
  rw [checkFrame_none_iff, Layout.overhead_eq, signBytes_eq]
  rfl

/-- The checked region of a received frame, as the statements cut it (41_frame_codec.md R119). -/
theorem crc16_received (bytes : List Byte) (l : Byte) :
    crc16 bytes 2 (l.toNat + 1) = checksum ((bytes.drop 2).take (l.toNat - 1)) := by
  rw [crc16, crcOf_eq_checksum, slice, Nat.add_sub_add_right l.toNat 1 1]

/-! ### The record read by position -/

variable {S : Nat} {bytes : List Byte} {l : Byte} {f g : Frame}

theorem ReadsByPosition.length_eq (hf : ReadsByPosition S bytes f) (h : Accepted S bytes l) : f.length = l :=
  Option.some.inj (hf.length.symm.trans h.1)

/-- The parameters fill the counted region up to the checksum (41_frame_codec.md R118). -/
theorem ReadsByPosition.length_toNat (hf : ReadsByPosition S bytes f) (h : Accepted S bytes l) :
    f.length.toNat = 8 + S + f.parameters.length := by
  have hl := hf.length_eq h
  obtain ⟨-, hmin, hsize⟩ := h
  rw [hf.parameters, hl, List.length_take, List.length_drop]
  omega

/-- The positions determine the record. -/
theorem ReadsByPosition.unique (hf : ReadsByPosition S bytes f) (hg : ReadsByPosition S bytes g) : f = g := by
  have hlen : f.length = g.length := Option.some.inj (hf.length.symm.trans hg.length)
  have hpar : f.parameters = g.parameters := by rw [hf.parameters, hg.parameters, hlen]
  have hsum : f.checksum = g.checksum := by
    obtain ⟨lo, hi, hlo, hhi, hc⟩ := hf.checksum
    obtain ⟨lo', hi', hlo', hhi', hc'⟩ := hg.checksum
    rw [hlen] at hlo hhi
    obtain rfl : lo = lo' := Option.some.inj (hlo.symm.trans hlo')
    obtain rfl : hi = hi' := Option.some.inj (hhi.symm.trans hhi')
    exact BitVec.eq_of_toNat_eq (hc.trans hc'.symm)
  have hhead : f.head = g.head :=
    Prod.ext (Option.some.inj (hf.head0.symm.trans hg.head0)) (Option.some.inj (hf.head1.symm.trans hg.head1))
  have hsrc : f.sourceAddr = g.sourceAddr :=
    Prod.ext (Option.some.inj (hf.source0.symm.trans hg.source0)) (Option.some.inj (hf.source1.symm.trans hg.source1))
  have htgt : f.targetAddr = g.targetAddr :=
    Prod.ext (Option.some.inj (hf.target0.symm.trans hg.target0)) (Option.some.inj (hf.target1.symm.trans hg.target1))
  have hsign : f.sign = g.sign := hf.sign.trans hg.sign.symm
  have hcmd : f.command = g.command := Option.some.inj (hf.command.symm.trans hg.command)
  have hres : f.reserved = g.reserved := Option.some.inj (hf.reserved.symm.trans hg.reserved)
  cases f; cases g
  simp_all

/-- Everything but the checksum stands in the first L + 1 bytes: a buffer that begins with the same ones is read as the
same record, with its own checksum. -/
theorem ReadsByPosition.congr_checksum {bytes' : List Byte} {lo hi : Byte} {c : Half}
    (hf : ReadsByPosition S bytes f) (hmin : 8 + S ≤ f.length.toNat)
    (hsame : bytes'.take (f.length.toNat + 1) = bytes.take (f.length.toNat + 1))
    (hlo : bytes'[f.length.toNat + 1]? = some lo) (hhi : bytes'[f.length.toNat + 2]? = some hi)
    (hc : c.toNat = lo.toNat + 256 * hi.toNat) : ReadsByPosition S bytes' { f with checksum := c } := by
  have at_ : ∀ i, i ≤ 8 + S → bytes'[i]? = bytes[i]? := fun i hi => by
    rw [← List.getElem?_take_of_lt (l := bytes') (show i < f.length.toNat + 1 by omega), hsame,
      List.getElem?_take_of_lt (by omega)]
  have hpar : (bytes'.drop (9 + S)).take (f.length.toNat - 8 - S) =
      (bytes.drop (9 + S)).take (f.length.toNat - 8 - S) := by
    rw [show f.length.toNat - 8 - S = f.length.toNat + 1 - (9 + S) by omega, ← List.drop_take, hsame, List.drop_take]
  exact
    { head0 := (at_ 0 (by omega)).trans hf.head0
      head1 := (at_ 1 (by omega)).trans hf.head1
      length := (at_ 2 (by omega)).trans hf.length
      source0 := (at_ 3 (by omega)).trans hf.source0
      source1 := (at_ 4 (by omega)).trans hf.source1
      target0 := (at_ 5 (by omega)).trans hf.target0
      target1 := (at_ 6 (by omega)).trans hf.target1
      sign := by rw [at_ 7 (by omega)]; exact hf.sign
      command := (at_ _ (by omega)).trans hf.command
      reserved := (at_ _ (by omega)).trans hf.reserved
      parameters := hf.parameters.trans hpar.symm
      checksum := ⟨lo, hi, hlo, hhi, hc⟩ }

/-- What DEC reads is the record at the positions of 41_frame_codec.md R112. -/
theorem readFrame_readsByPosition {cfg : Config} (h : readFrame cfg bytes = some f) :
    ReadsByPosition (signBytes cfg) bytes f := by
  unfold readFrame at h
  split at h
  · rename_i h0 h1 l s0 s1 t0 t1 sg c r e0 e1 e2 e3 e4 e5 e6 es ec er
    split at h
    · rename_i lo hi elo ehi
      cases h
      rw [Layout.commandAt_eq, ← signBytes_eq] at ec
      rw [Layout.reservedAt_eq, ← signBytes_eq] at er
      refine ⟨e0, e1, e2, e3, e4, e5, e6, ?_, ec, er, ?_, lo, hi, elo, ehi, halfOfLowHigh_toNat lo hi⟩
      · unfold readSign at es
        unfold signBytes
        cases hl : cfg.layout with
        | layout0 => simpa [hl] using es.symm
        | layout1 =>
          simp only [hl] at es
          split at es
          · cases es; simpa [byteAt, eq_comm] using ‹byteAt bytes 7 = _›
          · cases es
      · simp only [slice, Layout.parametersAt_eq, ← signBytes_eq]
        congr 1; omega
    · cases h
  · cases h

end Sys2Proof.Spec

namespace Sys2Proof.Machine

open Spec

variable {cfg : Config} {bytes : List Byte} {l : Byte} {f : Frame}

/-! ### What ENCODE answers -/

/-- ENCODE inside its precondition delivers the frame (41_frame_codec.md R102, 43_paths.md R160). -/
theorem runEncode_of_fits {p ps : List Byte} (hn : ps.length ≤ 247 - signBytes cfg) (hp : PrefixFits cfg p)
    (dest : TxDest) (cc : Byte) (s : State) :
    runEncode cfg dest p cc ps s = .next (delivered dest (p ++ frame (sign cfg) cc ps) s) := by
  rw [← nMax_eq] at hn
  rw [runEncode, encodeFrame_ok hn (prefixTooLong_eq_false_iff.mpr hp), buildFrame_eq_frame]
  cases dest <;> rfl

/-- ENCODE outside its precondition raises ParameterOverflow, wherever its result was to go. -/
theorem runEncode_overflow {p ps : List Byte} (h : ¬(ps.length ≤ 247 - signBytes cfg ∧ PrefixFits cfg p))
    (dest : TxDest) (cc : Byte) (s : State) :
    runEncode cfg dest p cc ps s = .next (answered s (.error (.parameterOverflow ps.length))) := by
  have hbad : cfg.layout.nMax < ps.length ∨ prefixTooLong cfg p.length = true := by
    rw [← nMax_eq, ← prefixTooLong_eq_false_iff, not_and_or, not_le, Bool.not_eq_false] at h
    exact h
  rw [runEncode, encodeFrame_overflow hbad]
  rfl

/-- Settles O14: ENCODE is `runEncode` for the caller. -/
theorem encodeBuildsFrame : Obligations.EncodeBuildsFrame := fun s _ cc _ =>
  ⟨fun hn hp => runEncode_of_fits hn hp .caller cc s, fun h => runEncode_overflow h .caller cc s⟩

/-- Settles O15: the size of a built frame, after the bytes sent first. -/
theorem encodeResultSize : Obligations.EncodeResultSize := by
  intro s p cc ps hn hp
  refine ⟨_, runEncode_of_fits hn hp .caller cc s, ?_⟩
  rw [List.length_append, ← buildFrame_eq_frame, buildFrame_length, Layout.overhead_eq, signBytes_eq]
  omega

/-! ### What DECODE answers -/

/-- A buffer that fails a check is MalformedFrame with that check (41_frame_codec.md R111). -/
theorem runDecode_of_malformed {kind : MalformedKind} (h : checkFrame cfg bytes = some kind) (s : State) :
    runDecode cfg bytes s = .next (answered s (.error (.malformedFrame kind bytes))) := by
  rw [runDecode, decodeFrame, h]
  rfl

/-- On an accepted buffer DECODE is the option VERIFY_CRC applied to the record at the positions. -/
theorem decodeFrame_of_reads (h : Accepted (signBytes cfg) bytes l) (hf : ReadsByPosition (signBytes cfg) bytes f) :
    decodeFrame cfg bytes = .ok (verifyFrame cfg bytes f) := by
  have hc := checkFrame_eq_none_iff.mpr ⟨l, h⟩
  obtain ⟨g, hg, -⟩ := readFrame_of_checks hc
  rw [decodeFrame, hc, hg, (readFrame_readsByPosition hg).unique hf]

/-- An accepted buffer has a record at the positions (41_frame_codec.md R112: "no read is out of range"). -/
theorem exists_readsByPosition (h : Accepted (signBytes cfg) bytes l) :
    ∃ f, ReadsByPosition (signBytes cfg) bytes f := by
  obtain ⟨f, hf, -⟩ := readFrame_of_checks (checkFrame_eq_none_iff.mpr ⟨l, h⟩)
  exact ⟨f, readFrame_readsByPosition hf⟩

/-- The record, where nothing is compared or the checksum is right (41_frame_codec.md R115, R119). -/
theorem verifyFrame_ok (h : cfg.verifyCrc = false ∨ crc16 bytes 2 (f.length.toNat + 1) = f.checksum) :
    verifyFrame cfg bytes f = .ok f := by
  rcases h with h | h <;> simp [verifyFrame, h]

/-- The mismatch, where the checksum is compared and wrong (41_frame_codec.md R119). -/
theorem verifyFrame_mismatch (hv : cfg.verifyCrc = true) (h : crc16 bytes 2 (f.length.toNat + 1) ≠ f.checksum) :
    verifyFrame cfg bytes f = .error (.checksumMismatch f.checksum (crc16 bytes 2 (f.length.toNat + 1))) :=
  if_pos ⟨hv, h⟩

/-- DECODE hands back what the decoder made of the bytes, and changes nothing else. -/
theorem runDecode_of_ok (h : decodeFrame cfg bytes = .ok (.ok f)) (s : State) :
    runDecode cfg bytes s = .next (answered s (.decoded f)) := by
  rw [runDecode, h]
  rfl

theorem runDecode_of_error {e : BlockError} (h : decodeFrame cfg bytes = .ok (.error e)) (s : State) :
    runDecode cfg bytes s = .next (answered s (.error e)) := by
  rw [runDecode, h]
  rfl

/-- With VERIFY_CRC = 0 an accepted buffer is decoded to the record at its positions (41_frame_codec.md R115). -/
theorem decodeFrame_of_noVerify (hv : cfg.verifyCrc = false) (h : Accepted (signBytes cfg) bytes l)
    (hf : ReadsByPosition (signBytes cfg) bytes f) : decodeFrame cfg bytes = .ok (.ok f) := by
  rw [decodeFrame_of_reads h hf, verifyFrame_ok (.inl hv)]

/-- A decoded record is the one at the positions of an accepted buffer. -/
theorem decodeFrame_ok_reads (h : decodeFrame cfg bytes = .ok (.ok f)) :
    (∃ l, Accepted (signBytes cfg) bytes l) ∧ ReadsByPosition (signBytes cfg) bytes f := by
  cases hc : checkFrame cfg bytes with
  | some kind => simp [decodeFrame, hc] at h
  | none =>
    obtain ⟨l, ha⟩ := checkFrame_eq_none_iff.mp hc
    obtain ⟨g, hg⟩ := exists_readsByPosition ha
    rw [decodeFrame_of_reads ha hg, Except.ok.injEq] at h
    obtain hv | ⟨-, hv⟩ := verifyFrame_cases cfg bytes g
    · obtain rfl : g = f := by simpa [hv] using h
      exact ⟨⟨l, ha⟩, hg⟩
    · simp [hv] at h

/-- The checks of a buffer that has its length byte, in their order (41_frame_codec.md R111). -/
theorem checkFrame_of_lengthByte (h2 : bytes[2]? = some l) (h10 : 10 ≤ bytes.length) :
    checkFrame cfg bytes = if bytes.length < 3 + l.toNat then some .truncated
      else if l.toNat < 8 + signBytes cfg then some .underLength else none := by
  rw [checkFrame, if_neg (by simpa [decMin] using h10), byteAt, h2, signBytes_eq, ← Layout.overhead_eq]
  rfl

/-- An accepted buffer is answered with its record or with ChecksumMismatch. -/
theorem runDecode_ne_malformed (h : Accepted (signBytes cfg) bytes l) (s : State) (kind : MalformedKind) :
    runDecode cfg bytes s ≠ .next (answered s (.error (.malformedFrame kind bytes))) := by
  obtain ⟨f, hf⟩ := exists_readsByPosition h
  have hd := decodeFrame_of_reads h hf
  obtain hv | ⟨-, hv⟩ := verifyFrame_cases cfg bytes f
  · rw [runDecode_of_ok (hd.trans (congrArg _ hv))]
    simp [answered]
  · rw [runDecode_of_error (hd.trans (congrArg _ hv))]
    simp [answered]

/-- Settles O18: one case of the checks for each clause, and where they pass the answer is no MalformedFrame. -/
theorem decodeChecksInOrder : Obligations.DecodeChecksInOrder := by
  intro s bytes
  refine ⟨fun h => runDecode_of_malformed (if_pos h) s, fun l h2 h10 hl => runDecode_of_malformed ?_ s,
    fun l h2 h10 hl hmin => runDecode_of_malformed ?_ s,
    fun ⟨l, h⟩ => runDecode_ne_malformed h s, fun h => checkFrame_eq_none_iff.mp ?_⟩
  · rw [checkFrame_of_lengthByte h2 h10, if_pos hl]
  · rw [checkFrame_of_lengthByte h2 h10, if_neg (not_lt.mpr hl), if_pos hmin]
  · cases hc : checkFrame s.cfg bytes with
    | none => rfl
    | some kind => exact absurd (runDecode_of_malformed hc s) (h kind)

/-- Settles O19: the record at the positions, with the option VERIFY_CRC applied to it. -/
theorem decodeReadsByPosition : Obligations.DecodeReadsByPosition := by
  intro s bytes l h
  obtain ⟨f, hf⟩ := exists_readsByPosition h
  have hd := decodeFrame_of_reads h hf
  have hsum : crc16 bytes 2 (f.length.toNat + 1) = checksum ((bytes.drop 2).take (l.toNat - 1)) := by
    rw [hf.length_eq h, crc16_received]
  rw [← hsum]
  exact ⟨f, hf, fun hv => runDecode_of_ok (hd.trans (congrArg _ (verifyFrame_ok hv))) s,
    fun hv hne => runDecode_of_error (hd.trans (congrArg _ (verifyFrame_mismatch hv hne))) s⟩

/-- A record that DECODE answered is what the decoder made of the bytes. -/
theorem decodeFrame_of_answer {s t : State} (h : runDecode cfg bytes s = .next t)
    (ht : t.results = s.results ++ [.decoded f]) : decodeFrame cfg bytes = .ok (.ok f) := by
  obtain ⟨r, hr, hrun⟩ := runDecode_spec cfg bytes s
  rw [hrun, Host.Outcome.next.injEq] at h
  subst h
  cases r with
  | error e => simp at ht
  | ok g =>
    obtain rfl : g = f := by simpa using ht
    exact hr

/-- Settles O20: an accepted buffer has all the parameters that its length byte counts. -/
theorem decodedLengthCountsParameters : Obligations.DecodedLengthCountsParameters := by
  intro s t bytes f h ht
  obtain ⟨⟨l, ha⟩, hf⟩ := decodeFrame_ok_reads (decodeFrame_of_answer h ht)
  exact hf.length_toNat ha

/-- Bytes beyond the frame change nothing of what DEC makes of it (41_frame_codec.md R117). -/
theorem decodeFrame_append (h : Accepted (signBytes cfg) bytes l) (extra : List Byte) :
    decodeFrame cfg (bytes ++ extra) = decodeFrame cfg bytes := by
  obtain ⟨f, hf⟩ := exists_readsByPosition h
  have hl := hf.length_eq h
  have hd := decodeFrame_of_reads h hf
  obtain ⟨h2, hmin, hsize⟩ := h
  obtain ⟨lo, hi, hlo, hhi, hc⟩ := hf.checksum
  have at_ : ∀ i, i < bytes.length → (bytes ++ extra)[i]? = bytes[i]? := fun i hi => List.getElem?_append_left hi
  have ha : Accepted (signBytes cfg) (bytes ++ extra) l :=
    ⟨(at_ 2 (by omega)).trans h2, hmin, by rw [List.length_append]; omega⟩
  have hf' : ReadsByPosition (signBytes cfg) (bytes ++ extra) f :=
    hf.congr_checksum (by rw [hl]; exact hmin) (List.take_append_of_le_length (by rw [hl]; omega))
      ((at_ _ (by rw [hl]; omega)).trans hlo) ((at_ _ (by rw [hl]; omega)).trans hhi) hc
  rw [decodeFrame_of_reads ha hf', hd, verifyFrame, verifyFrame, crc16_append_left (by rw [hl]; omega)]

/-- Settles O21: DECODE depends on what the decoder makes of the bytes. -/
theorem decodeIgnoresTrailingBytes : Obligations.DecodeIgnoresTrailingBytes := by
  intro s bytes extra l h
  obtain ⟨r, -, hrun⟩ := runDecode_spec s.cfg bytes s
  have hsame : runDecode s.cfg (bytes ++ extra) s = runDecode s.cfg bytes s := by
    rw [runDecode, decodeFrame_append h, runDecode]
  exact ⟨_, hrun, hsame.trans hrun⟩

/-- The bytes up to the checksum and any two after them are accepted. -/
theorem accepted_append_pair {body : List Byte} {S : Nat} (h2 : body[2]? = some l) (hmin : 8 + S ≤ l.toNat)
    (hsize : body.length = l.toNat + 1) (lo hi : Byte) : Accepted S (body ++ [lo, hi]) l :=
  ⟨by rw [List.getElem?_append_left (by omega), h2], hmin, by simp [hsize]; omega⟩

/-- The two bytes after the counted ones. -/
theorem getElem?_append_pair {body : List Byte} {n : Nat} (h : body.length = n + 1) (lo hi : Byte) :
    (body ++ [lo, hi])[n + 1]? = some lo ∧ (body ++ [lo, hi])[n + 2]? = some hi := by
  rw [← h, show n + 2 = body.length + 1 by omega]
  simp

/-- Settles O22: the record with the other checksum stands at the positions of the other buffer. -/
theorem decodeDoesNotValidateChecksum : Obligations.DecodeDoesNotValidateChecksum := by
  intro s body l lo hi lo' hi' hv h2 hmin hsize
  have ha := accepted_append_pair h2 hmin hsize
  obtain ⟨f, hf⟩ := exists_readsByPosition (ha lo hi)
  have hl := hf.length_eq (ha lo hi)
  obtain ⟨elo, ehi⟩ := getElem?_append_pair hsize lo hi
  obtain ⟨elo', ehi'⟩ := getElem?_append_pair hsize lo' hi'
  have hsum : f.checksum.toNat = lo.toNat + 256 * hi.toNat := by
    obtain ⟨a, b, ea, eb, hc⟩ := hf.checksum
    rw [hl, elo] at ea
    rw [hl, ehi] at eb
    cases ea; cases eb
    exact hc
  have hf' := hf.congr_checksum (bytes' := body ++ [lo', hi']) (c := BitVec.ofNat 16 (lo'.toNat + 256 * hi'.toNat))
    (by rw [hl]; exact hmin) (by rw [hl, ← hsize, List.take_left, List.take_left]) (by rw [hl]; exact elo')
    (by rw [hl]; exact ehi') (by
      have := lo'.isLt; have := hi'.isLt
      rw [BitVec.toNat_ofNat, Nat.mod_eq_of_lt (by omega)])
  exact ⟨f, runDecode_of_ok (decodeFrame_of_noVerify hv (ha lo hi) hf) s, hsum,
    runDecode_of_ok (decodeFrame_of_noVerify hv (ha lo' hi') hf') s⟩

/-! ### The round trip -/

/-- The record of a frame that ENC built: its command, its parameters, the fixed fields and the checksum of the checked
region (41_frame_codec.md R120). -/
def encodedRecord (cfg : Config) (cc : Byte) (ps : List Byte) : Frame where
  head := (0x7E#8, 0x55#8)
  length := BitVec.ofNat 8 (8 + signBytes cfg + ps.length)
  sourceAddr := (0x00#8, 0x00#8)
  targetAddr := (0x01#8, 0x00#8)
  sign := sign cfg
  command := cc
  reserved := 0x00#8
  parameters := ps
  checksum := frameChecksum (sign cfg) cc ps

/-- The length byte of a built frame does not wrap. -/
theorem encodedRecord_length {ps : List Byte} (hn : ps.length ≤ 247 - signBytes cfg) (cc : Byte) :
    (encodedRecord cfg cc ps).length.toNat = 8 + signBytes cfg + ps.length := by
  rw [← nMax_eq] at hn
  have h := lengthByte_toNat hn
  rw [Layout.overhead_eq, ← signBytes_eq] at h
  exact h

/-- The parameters of a frame body start at offset 9 + SIGN_BYTES (30_encoding.md R62). -/
theorem drop_frameBody (cfg : Config) (cc : Byte) (ps : List Byte) :
    (frameBody cfg cc ps).drop (9 + signBytes cfg) = ps :=
  List.drop_left' (by simp [signBytes_eq]; omega)

/-- The frame body has L + 1 bytes. -/
theorem frameBody_length_eq (cfg : Config) (cc : Byte) (ps : List Byte) :
    (frameBody cfg cc ps).length = 8 + signBytes cfg + ps.length + 1 := by
  rw [frameBody_length, Layout.overhead_eq, signBytes_eq]

/-- The fields of a built frame whose place or presence depends on the layout (30_encoding.md R61, R62). -/
theorem buildFrame_layoutFields (cfg : Config) (cc : Byte) (ps : List Byte) :
    sign cfg = (if signBytes cfg = 1 then (buildFrame cfg cc ps)[7]? else none) ∧
    (buildFrame cfg cc ps)[7 + signBytes cfg]? = some cc ∧
    (buildFrame cfg cc ps)[8 + signBytes cfg]? = some 0x00#8 := by
  obtain ⟨_, _, layout, _, _, _, _⟩ := cfg
  cases layout with
  | layout0 => exact ⟨rfl, rfl, rfl⟩
  | layout1 => exact ⟨rfl, rfl, rfl⟩

/-- A built frame holds its record, field by field. -/
theorem buildFrame_reads {ps : List Byte} (hn : ps.length ≤ 247 - signBytes cfg) (cc : Byte) :
    ReadsByPosition (signBytes cfg) (buildFrame cfg cc ps) (encodedRecord cfg cc ps) := by
  obtain ⟨hsign, hcommand, hreserved⟩ := buildFrame_layoutFields cfg cc ps
  have hlen := encodedRecord_length hn cc
  have hbody := frameBody_length_eq cfg cc ps
  have hpar : ((buildFrame cfg cc ps).drop (9 + signBytes cfg)).take
      ((encodedRecord cfg cc ps).length.toNat - 8 - signBytes cfg) = ps := by
    rw [buildFrame_eq_append, List.drop_append_of_le_length (by omega), drop_frameBody]
    exact List.take_left' (by omega)
  obtain ⟨hlo, hhi⟩ := getElem?_append_pair hbody (lo8 (frameChecksum (sign cfg) cc ps))
    (hi8 (frameChecksum (sign cfg) cc ps))
  rw [← hlen, ← wireBytes, ← buildFrame_eq_append] at hlo hhi
  exact
    { head0 := rfl
      head1 := rfl
      length := by rw [buildFrame_lengthByte, Layout.overhead_eq, ← signBytes_eq]; rfl
      source0 := rfl
      source1 := rfl
      target0 := rfl
      target1 := rfl
      sign := hsign
      command := hcommand
      reserved := hreserved
      parameters := hpar.symm
      checksum := ⟨_, _, hlo, hhi, by rw [← halfOfLowHigh_toNat, halfOfLowHigh_wire]; rfl⟩ }

/-- A built frame is accepted, and DEC makes its record of it whether or not the checksum is compared. -/
theorem decodeFrame_buildFrame {ps : List Byte} (hn : ps.length ≤ 247 - signBytes cfg) (cc : Byte) :
    decodeFrame cfg (buildFrame cfg cc ps) = .ok (.ok (encodedRecord cfg cc ps)) := by
  have hf := buildFrame_reads hn cc
  have hlen := encodedRecord_length hn cc
  have hbody := frameBody_length_eq cfg cc ps
  have ha : Accepted (signBytes cfg) (buildFrame cfg cc ps) (encodedRecord cfg cc ps).length :=
    ⟨hf.length, by omega, by rw [hlen, buildFrame_length, Layout.overhead_eq, ← signBytes_eq]; omega⟩
  have hsum : crc16 (buildFrame cfg cc ps) 2 ((encodedRecord cfg cc ps).length.toNat + 1) =
      (encodedRecord cfg cc ps).checksum := by
    rw [hlen, ← hbody, buildFrame_eq_append, crc16_append_left le_rfl, crc16_frameBody]
    rfl
  rw [decodeFrame_of_reads ha hf, verifyFrame_ok (.inr hsum)]

/-- Settles O23: what ENCODE returns is, from the head on, a built frame, and DEC makes its record of it. -/
theorem decodeOfEncodedFrameReturnsOperands : Obligations.DecodeOfEncodedFrameReturnsOperands := by
  intro s p cc ps hn hp
  refine ⟨_, runEncode_of_fits hn hp .caller cc s, ?_⟩
  rw [List.drop_left, ← buildFrame_eq_frame]
  exact runDecode_of_ok (decodeFrame_buildFrame hn cc) s

/-! ### The frame rows -/

/-- The rows of format FRAME0, each with its command; FRAME_ANY stands for any byte (41_frame_codec.md R122 to R126). -/
def frameRows (cc : Byte) : List ((FrameUse → Instr) × Byte) :=
  [(.tagFeedback, 0x15#8), (.readTag, 0x16#8), (.readBlock, 0x70#8), (.writeBlock, 0x71#8), (.frameAny cc, cc)]

theorem mem_frameRows {row : FrameUse → Instr} {cc : Byte} (h : (row, cc) ∈ frameRows cc) :
    (row = .tagFeedback ∧ cc = cmdTagFeedback) ∨ (row = .readTag ∧ cc = cmdReadTag) ∨
      (row = .readBlock ∧ cc = cmdReadBlock) ∨ (row = .writeBlock ∧ cc = cmdWriteBlock) ∨
      row = .frameAny cc := by
  simpa [frameRows, cmdTagFeedback, cmdReadTag, cmdReadBlock, cmdWriteBlock] using h

/-- Each row uses a frame of its command. -/
theorem exec_frameRow {row : FrameUse → Instr} {cc : Byte} (h : (row, cc) ∈ frameRows cc) (use : FrameUse)
    (s : State) : exec (row use) s = runFrameUse s.cfg cc use s := by
  obtain ⟨rfl, rfl⟩ | ⟨rfl, rfl⟩ | ⟨rfl, rfl⟩ | ⟨rfl, rfl⟩ | rfl := mem_frameRows h <;> rfl

/-- The bytes of a well-formed received frame of a row match the row's receive-side pattern (30_encoding.md R75). -/
theorem frameRow_fits {row : FrameUse → Instr} {cc : Byte} (h : (row, cc) ∈ frameRows cc) {use : FrameUse}
    (hw : (row use).wf = true) : use.fits frame0DecodeMask (frame0DecodeMatch cc) = true := by
  obtain ⟨rfl, rfl⟩ | ⟨rfl, rfl⟩ | ⟨rfl, rfl⟩ | ⟨rfl, rfl⟩ | rfl := mem_frameRows h
  · exact hw
  · exact hw
  · exact hw
  · exact hw
  · exact (Bool.and_eq_true_iff.mp hw).2

/-- Settles O24: a row builds as ENCODE does. -/
theorem frameRowsWriteTheirCommand : Obligations.FrameRowsWriteTheirCommand := by
  intro s dest p ps row cc hrow
  rw [exec_frameRow hrow]
  exact ⟨fun hn hp => runEncode_of_fits hn hp dest cc s, fun h => runEncode_overflow h dest cc s⟩

/-- With VERIFY_CRC = 0 an accepted buffer is answered with the record at its positions (41_frame_codec.md R115). -/
theorem exists_runDecode_of_noVerify (hv : cfg.verifyCrc = false) (h : Accepted (signBytes cfg) bytes l) (s : State) :
    ∃ f, runDecode cfg bytes s = .next (answered s (.decoded f)) ∧ ReadsByPosition (signBytes cfg) bytes f := by
  obtain ⟨f, hf⟩ := exists_readsByPosition h
  exact ⟨f, runDecode_of_ok (decodeFrame_of_noVerify hv h hf) s, hf⟩

theorem signBytes_of_layout0 (h : cfg.layout = .layout0) : signBytes cfg = 0 := by rw [signBytes_eq, h]; rfl

/-- Settles O25: a row reads as DECODE does, and the pattern of the row holds the marker and the command. -/
theorem frameRowsReadTheirCommand : Obligations.FrameRowsReadTheirCommand := by
  intro s bytes row cc hrow
  rw [exec_frameRow hrow]
  refine ⟨rfl, fun l h0 hv hw ha => ?_⟩
  have hS := signBytes_of_layout0 h0
  obtain ⟨f, hd, hf⟩ := exists_runDecode_of_noVerify hv (hS ▸ ha) s
  rw [hS] at hf
  have hm : maskMatch frame0DecodeMask (frame0DecodeMatch cc) bytes = true := frameRow_fits hrow hw
  have hcmd : bytes[7]? = some cc := frame0_command hm
  have hh0 : bytes[0]? = some 0x7E#8 := maskMatch_ones hm rfl rfl
  have hh1 : bytes[1]? = some 0x55#8 := maskMatch_ones hm rfl rfl
  exact ⟨f, hd, hf, Option.some.inj (hf.command.symm.trans hcmd),
    Prod.ext (Option.some.inj (hf.head0.symm.trans hh0)) (Option.some.inj (hf.head1.symm.trans hh1))⟩

/-- Settles O26: the codec with the configuration in layout 1, where SIGN_BYTES is 1 and the sign byte SIGN_VALUE. -/
theorem layoutOneFrameCarriesSignByte : Obligations.LayoutOneFrameCarriesSignByte := by
  refine fun s cc => ⟨fun dest p ps hn hp => runEncode_of_fits (cfg := s.cfg.inLayout1) hn hp dest cc s,
    fun dest p ps h => runEncode_overflow (cfg := s.cfg.inLayout1) h dest cc s, fun bytes l hv hw ha => ?_⟩
  obtain ⟨f, hd, hf⟩ := exists_runDecode_of_noVerify (cfg := s.cfg.inLayout1) hv ha s
  have hcmd : bytes[8]? = some cc := frame1_command hw
  exact ⟨f, hd, hf, Option.some.inj (hf.command.symm.trans hcmd)⟩

/-! ### The receive path in layout 0 -/

/-- The event is one of the reassembler's, not the receive path's DECODE_DROPPED (60_exceptions.md R175). -/
def Event.FromReassembler (e : Event) : Prop := ∀ frame reason, e ≠ .decodeDropped frame reason

theorem pushByte_event {b : Byte} {s : State} {p : PushResult} (h : pushByte b s = .ok p) :
    ∀ e ∈ p.event.toList, e.FromReassembler := by
  obtain ⟨-, -, rfl⟩ | ⟨-, -, rfl⟩ | ⟨-, -, -, hc⟩ := pushByte_cases h
  · simp [Event.FromReassembler]
  · simp [Event.FromReassembler]
  · obtain ⟨_, _, -, -, -, -, rfl⟩ | ⟨-, -, rfl⟩ | ⟨-, -, rfl⟩ := completionTest_cases hc
    · simp
    · simp [Event.FromReassembler]
    · simp

theorem pushBytes_events {chunk : List Byte} {s : State} {r : RsmResult} (h : pushBytes chunk s = .ok r) :
    ∀ e ∈ r.events, e.FromReassembler := by
  induction chunk generalizing s r with
  | nil =>
    cases h
    simp
  | cons b bs ih =>
    obtain ⟨p, q, hp, hq, rfl⟩ := pushBytes_cons_ok.mp h
    intro e he
    obtain he | he := List.mem_append.mp he
    · exact pushByte_event hp e he
    · exact ih hq e he

theorem stalenessCheck_events (now : Nat) (s : State) : ∀ e ∈ (stalenessCheck now s).2, e.FromReassembler := by
  unfold stalenessCheck
  split
  · simp
  · dsimp only
    split <;> simp [Event.FromReassembler]

/-- No event of CONSUME is a DECODE_DROPPED. -/
theorem consumeChunk_events {now : Nat} {chunk : List Byte} {s : State} {r : RsmResult}
    (h : consumeChunk now chunk s = .ok r) : ∀ e ∈ r.events, e.FromReassembler := by
  obtain ⟨q, hq, rfl⟩ := consumeChunk_cases h
  intro e he
  obtain he | he := List.mem_append.mp he
  · exact stalenessCheck_events now s e he
  · exact pushBytes_events hq e he

/-- In layout 0 an emitted frame passes the checks of DECODE: it has at least 11 bytes, so its length byte is at least
8 (41_frame_codec.md R127). -/
theorem EmittedFrame.accepted {c : Config} (h : EmittedFrame c bytes) : ∃ l, Accepted 0 bytes l := by
  obtain ⟨l, hl, hsize⟩ := h.length
  have hmin := h.atLeast
  rw [expectedTotal_eq] at hsize
  exact ⟨l, hl, by omega, by omega⟩

/-- In layout 0 with VERIFY_CRC = 0 every emitted frame is decoded to a record. -/
theorem decodeEmitted_layout0 (h0 : cfg.layout = .layout0) (hv : cfg.verifyCrc = false) {fs : List (List Byte)}
    (h : ∀ f ∈ fs, EmittedFrame cfg f) :
    ∃ out, decodeEmitted cfg fs = .ok (out, []) ∧ out.length = fs.length := by
  induction fs with
  | nil => exact ⟨[], rfl, rfl⟩
  | cons f fs ih =>
    obtain ⟨hf, hfs⟩ := List.forall_mem_cons.mp h
    obtain ⟨l, ha⟩ := hf.accepted
    rw [← signBytes_of_layout0 h0] at ha
    obtain ⟨r, hr⟩ := exists_readsByPosition ha
    obtain ⟨out, hout, hn⟩ := ih hfs
    exact ⟨r :: out, by simp [decodeEmitted, decodeFrame_of_noVerify hv ha hr, hout], by simp [hn]⟩

/-- Settles O47: RXPATH is CONSUME and then DECODE of its frames, which all pass. -/
theorem layoutZeroReceiveNeverDrops : Obligations.LayoutZeroReceiveNeverDrops := by
  intro s now chunk hi h0 hv
  obtain ⟨r, hr, -, -, hemit⟩ := consumeChunk_total now chunk hi.toBufferInv
  obtain ⟨out, hout, hn⟩ := decodeEmitted_layout0 h0 hv hemit
  obtain ⟨frames, events, hdec, hrx⟩ := receiveChunk_of_consume hr
  obtain ⟨rfl, rfl⟩ : out = frames ∧ [] = events := by simpa [hout] using hdec
  obtain ⟨-, -, hres⟩ := consumeChunk_frame hr
  exact ⟨_, _, r.frames, r.events, out, execConsume_caller hr, by simp [hres], hrx, by simp [hres], hn,
    consumeChunk_events hr⟩

end Sys2Proof.Machine
end

section
/-! PROOFS. The statements about PUSH (42_reassembler.md R132 to R141). A PUSH is transition 1 or 2, or the append and
its tests; each statement is what one of these does, carried from `pushByte` to the operation. -/

namespace Sys2Proof.Machine

open Spec (HeadRight NoCompletion)

variable {s : State} {b : Byte} {p : PushResult}

/-! ### The operation and `pushByte` -/

/-- Inside a CONSUME the operation PUSH is `pushByte`, its frame and event the result. -/
theorem exec_push (hc : s.consuming = true) (hp : pushByte b s = .ok p) :
    exec (.push b) s = .next (p.state.record (.pushed p.frame p.event)) :=
  execPush_of_consuming hc hp

/-! ### Transitions 1 and 2 -/

/-- Transition 1: in EMPTY a byte other than HEAD0 is dropped (42_reassembler.md R134). -/
theorem pushByte_garbage (h0 : s.len = 0) (hb : b ≠ head0) : pushByte b s = .ok ⟨s, none, some (.dropGarbage b)⟩ :=
  if_pos ⟨h0, hb⟩

/-- Transition 2: after HEAD0 a byte other than HEAD1 empties the buffer (42_reassembler.md R135). -/
theorem pushByte_wrongHead (h1 : s.len = 1) (hb : b ≠ head1) :
    pushByte b s = .ok ⟨s.setLen 0, none, some (.dropHead2 b)⟩ := by
  unfold pushByte
  rw [if_neg (by omega), if_pos ⟨h1, hb⟩]

/-- Settles O28: transition 1. -/
theorem pushDropsGarbage : Obligations.PushDropsGarbage :=
  fun _ _ hc h0 hb => exec_push hc (pushByte_garbage h0 hb)

/-- Settles O29: transition 2. -/
theorem pushDropsWrongSecondHeadByte : Obligations.PushDropsWrongSecondHeadByte :=
  fun _ _ hc h1 hb => exec_push hc (pushByte_wrongHead h1 hb)

/-! ### The append and its tests -/

/-- A byte that neither transition 1 nor transition 2 takes is written at `buf[len]`, and `len` then counts it or has
been cleared by the tests (42_reassembler.md R136). -/
theorem pushByte_appends (hb : HeadRight b s) (hp : pushByte b s = .ok p) :
    p.state.buf = Memory.write s.buf s.len b ∧ (p.state.len = s.len + 1 ∨ p.state.len = 0) := by
  obtain ⟨h0, hne, -⟩ | ⟨h1, hne, -⟩ | ⟨-, -, -, ht⟩ := pushByte_cases hp
  · exact absurd (hb.1 h0) hne
  · exact absurd (hb.2 h1) hne
  · obtain ⟨_, _, -, -, -, -, rfl⟩ | ⟨-, -, rfl⟩ | ⟨-, -, rfl⟩ := completionTest_cases ht
    · exact ⟨rfl, .inr rfl⟩
    · exact ⟨rfl, .inr rfl⟩
    · exact ⟨rfl, .inl rfl⟩

/-- The statements' words for a byte that completes nothing, after the append; the length byte was there before. -/
theorem notComplete_appended (h : NoCompletion s) : NotComplete (s.appended b) := by
  intro h10
  have h10' : 10 < s.len + 1 := h10
  obtain hle | ⟨l, hl, hne⟩ := h
  · omega
  · exact ⟨l, holds_appended.mpr (by rwa [if_neg (by omega)]), hne⟩

/-- Settles O30: the append, with its tests and where they do nothing. -/
theorem pushAppendsByte : Obligations.PushAppendsByte := by
  refine fun s b hc hb => ⟨fun hi => ?_, fun hcap hn => ?_⟩
  · obtain ⟨p, hp⟩ := pushByte_total b hi.toBufferInv
    obtain ⟨hbuf, hlen⟩ := pushByte_appends hb hp
    refine ⟨_, exec_push hc hp, ?_, fun a ha => ?_, hlen⟩
    · rw [State.record_buf, hbuf, Memory.read_write_same]
    · rw [State.record_buf, hbuf, Memory.read_write_other _ _ ha]
  · have hp := pushByte_keeps hb.1 hb.2 hcap (notComplete_appended hn)
    exact ⟨_, exec_push hc hp, rfl, Memory.read_write_same .., fun a ha => Memory.read_write_other _ _ ha,
      rfl, rfl, rfl, rfl, hc, rfl, rfl⟩

/-- The bytes that the buffer holds stand in its contents at their addresses. -/
theorem getElem?_of_bufferContents {m : List Byte} (hm : bufferContents s = .ok m) {i : Nat} {v : Byte} (hi : i < s.len)
    (hv : s.holds i v) : m[i]? = some v := by
  obtain ⟨hlen, hholds⟩ := bufferContents_ok_iff.mp hm
  have hget : m[i]? = some m[i] := List.getElem?_eq_getElem (by omega)
  exact hget.trans ((hholds i _ hget).symm.trans hv)

/-- A PUSH that emits has met the completion test (42_reassembler.md R137). -/
theorem pushByte_frame_completes {f : List Byte} (hp : pushByte b s = .ok p) (hf : p.frame = some f) :
    checkFloor < s.len + 1 ∧ ∃ l, s.holds 2 l ∧ s.len + 1 = expectedTotal l := by
  obtain ⟨-, -, rfl⟩ | ⟨-, -, rfl⟩ | ⟨-, -, -, ht⟩ := pushByte_cases hp
  · cases hf
  · cases hf
  · obtain ⟨l, _, h10, h2, hl, -, -⟩ | ⟨-, -, rfl⟩ | ⟨-, -, rfl⟩ := completionTest_cases ht
    · have h10' : 10 < s.len + 1 := h10
      rw [holds_appended, if_neg (by omega)] at h2
      exact ⟨h10, l, h2, hl⟩
    · cases hf
    · cases hf

/-- Settles O31: the completing byte emits the buffer's contents and itself, and a PUSH emits in no other case. -/
theorem pushEmitsCompleteFrame : Obligations.PushEmitsCompleteFrame := by
  refine fun s b hc hi => ⟨fun l h10 h2 hl => ?_, fun t f e h hres => ?_⟩
  · obtain ⟨c, hcontents⟩ := bufferContents_of_written hi.written
    have hlen : c.length = s.len := (bufferContents_ok_iff.mp hcontents).1
    have hp := pushByte_completes (b := b) hcontents h10 hi.lenCap h2 hl
    refine ⟨c ++ [b], _, exec_push hc hp, by simp [hlen], fun i v hi hv => ?_, by simp [← hlen], rfl, rfl,
      fun a ha => Memory.read_write_other _ _ ha, rfl, rfl, rfl, hc, rfl, rfl⟩
    rw [List.getElem?_append_left (by omega), getElem?_of_bufferContents hcontents hi hv]
  · obtain ⟨-, p, hp, rfl⟩ := execPush_next h
    have hframe : p.frame = some f := by
      rw [State.record_results, (pushByte_frame hp).results] at hres
      simp only [List.append_cancel_left_eq, List.cons.injEq, Result.pushed.injEq] at hres
      exact hres.1.1
    exact pushByte_frame_completes hp hframe

/-- Settles O32: the cap test after an append that completes nothing. -/
theorem pushOverflowDiscardsBuffer : Obligations.PushOverflowDiscardsBuffer := by
  intro s b hc hb hfull hn
  have hp := pushByte_overflows hb.1 hb.2 hfull (notComplete_appended hn)
  exact ⟨_, exec_push hc hp, rfl, by rw [← hfull]; rfl, fun a ha => Memory.read_write_other _ _ ha, rfl, rfl, rfl, hc,
    rfl, rfl⟩

end Sys2Proof.Machine
end

section
/-! PROOFS. The statements about CONSUME (42_reassembler.md R130, R131, R133): its parts in their order, what the
staleness check does to the buffer in each case of the clock, and that no other part reads the clock but the timestamp.
Each is said of `consumeChunk` and carried to the operation by `exec_consume_caller`. -/

namespace Sys2Proof.Machine

open Spec (Pushes)

variable {s : State} {now : Nat} {chunk : List Byte} {q : RsmResult}

/-! ### The operation and `consumeChunk` -/

/-- The operation CONSUME is `consumeChunk`, its frames and events the one result. -/
theorem exec_consume_caller (h : consumeChunk now chunk s = .ok q) :
    exec (.consume .caller now chunk) s = .next (q.state.record (.consumed q.frames q.events)) :=
  execConsume_caller h

/-- The trace after an operation that ran a CONSUME and handed back one result. -/
theorem consumeChunk_record_results (h : consumeChunk now chunk s = .ok q) (r : Result) :
    (q.state.record r).results = s.results ++ [r] :=
  congrArg (· ++ [r]) (consumeChunk_frame h).2.2

/-- CONSUME, RXPATH and a received frame answer from every state that keeps the buffer's invariant. -/
theorem execConsume_total (dest : RxDest) (now : Nat) (chunk : List Byte) (hi : s.BufferInv) :
    ∃ q r, consumeChunk now chunk s = .ok q ∧ execConsume dest now chunk s = .next (q.state.record r) := by
  obtain ⟨q, hq, -⟩ := consumeChunk_total now chunk hi
  obtain ⟨r, hr, -⟩ := execConsume_alike dest hq hq rfl
  exact ⟨q, r, hq, hr⟩

/-- Settles O39: the parts are total under the invariant and keep it. -/
theorem reassemblerAlwaysAnswers : Obligations.ReassemblerAlwaysAnswers := by
  refine fun s => ⟨fun dest now chunk i hs hmem => ?_, fun b hs hc => ?_⟩
  · have hrun : ∃ d, exec i s = execConsume d now chunk s := by
      obtain rfl | rfl : i = .consume dest now chunk ∨ i = .rxFrame now chunk := by simpa using hmem
      · exact ⟨dest, rfl⟩
      · exact ⟨.decoder, rfl⟩
    obtain ⟨d, hd⟩ := hrun
    obtain ⟨q, r, hq, hr⟩ := execConsume_total d now chunk hs.toBufferInv
    obtain ⟨hcfg, hreq, -⟩ := consumeChunk_frame hq
    exact ⟨r, _, hd.trans hr, consumeChunk_record_results hq r, exec_ready hs (hd.trans hr), hcfg, hreq⟩
  · obtain ⟨p, hp⟩ := pushByte_total b hs.toBufferInv
    have hexec := exec_push hc hp
    have hf := pushByte_frame hp
    exact ⟨_, _, hexec, congrArg (· ++ _) hf.results, execPush_inv hs hexec, hf.consuming.trans hc, hf.cfg, hf.requests⟩

/-- Settles O40: what `consumeChunk_total` says of the emitted frames, the bounds of the length byte from their size. -/
theorem emittedFramesAreSized : Obligations.EmittedFramesAreSized := by
  intro s now chunk hi
  obtain ⟨q, hq, -, -, hemit⟩ := consumeChunk_total now chunk hi.toBufferInv
  refine ⟨_, _, _, exec_consume_caller hq, consumeChunk_record_results hq _, fun f hf => ?_⟩
  obtain ⟨h0, h1, hmin, hmax, l, hl, hsize⟩ := hemit f hf
  rw [expectedTotal_eq] at hsize
  exact ⟨h0, h1, hmin, hmax, l, hl, hsize, by omega, by omega⟩

/-! ### The timestamp -/

/-- A CONSUME leaves the clock's reading in the timestamp, or what was there if the chunk was empty. -/
theorem consumeChunk_lastActivity (h : consumeChunk now chunk s = .ok q) :
    q.state.lastActivity = if chunk = [] then s.lastActivity else clockReading s.cfg now := by
  obtain ⟨r, hr, rfl⟩ := consumeChunk_cases h
  obtain ⟨hcfg, -, hla, -⟩ := stalenessCheck_frame now s
  have hf := pushBytes_frame hr
  rw [State.setConsuming_lastActivity, stampActivity_lastActivity, hf.lastActivity, hf.cfg, hcfg, hla]

/-- With TIME_BITS unbounded the clock reads as the operand itself (42_reassembler.md R152). -/
theorem clockReading_unbounded {cfg : Config} (h : cfg.timeBits = none) (now : Nat) : clockReading cfg now = now := by
  rw [clockReading, h]

/-- Settles O38: the timestamp after CONSUME, with an unbounded clock. -/
theorem nonemptyChunkStampsActivity : Obligations.NonemptyChunkStampsActivity := by
  intro s dest now chunk hi ht
  obtain ⟨q, r, hq, hr⟩ := execConsume_total dest now chunk hi.toBufferInv
  refine ⟨_, hr, ?_⟩
  rw [State.record_lastActivity, consumeChunk_lastActivity hq, clockReading_unbounded ht]

/-! ### The PUSHes of a CONSUME -/

/-- Inside a CONSUME the run of PUSHes is the operation PUSH on each byte in order; these differ from the run in the
results they hand back alone. -/
theorem pushes_of_pushBytes {r : RsmResult} (hc : s.consuming = true) (h : pushBytes chunk s = .ok r) :
    ∃ rs, Pushes chunk s r.frames r.events (r.state.withTrace rs r.state.requests) := by
  induction chunk generalizing s r with
  | nil =>
    cases h
    exact ⟨s.results, .nil s⟩
  | cons b bs ih =>
    obtain ⟨p, q, hp, hq, rfl⟩ := pushBytes_cons_ok.mp h
    have hf := pushByte_frame hp
    have hrest := pushBytes_withTrace hq (p.state.results ++ [.pushed p.frame p.event]) p.state.requests
    have hreq := (pushBytes_frame hq).requests
    obtain ⟨rs, hrs⟩ := ih (s := p.state.record (.pushed p.frame p.event)) (hf.consuming.trans hc) hrest
    refine ⟨rs, .cons (exec_push hc hp) (congrArg (· ++ _) hf.results) ?_⟩
    rw [hreq]
    exact hrs

/-- With the clock in order the staleness check discards the buffer exactly where it is not empty and the gap exceeds
the window (42_reassembler.md R131). -/
theorem stalenessCheck_inOrder (hd : s.len ≠ 0 → EnvironmentDuty now s) :
    (s.len ≠ 0 ∧ s.cfg.staleWindow < clockReading s.cfg now - s.lastActivity →
      stalenessCheck now s = (s.setLen 0, [.dropStale s.len])) ∧
    (¬(s.len ≠ 0 ∧ s.cfg.staleWindow < clockReading s.cfg now - s.lastActivity) → stalenessCheck now s = (s, [])) := by
  refine ⟨fun ⟨h0, hs⟩ => stalenessCheck_stale h0 (hd h0) hs, fun hs => stalenessCheck_none ?_⟩
  by_cases h0 : s.len = 0
  · exact .inl h0
  · exact .inr ⟨hd h0, by simpa [h0] using hs⟩

/-- CONSUME by its parts, the PUSHes inside the CONSUME that has begun. -/
theorem consumeChunk_of_pushesInside {r : RsmResult}
    (hr : pushBytes chunk ((stalenessCheck now s).1.setConsuming true) = .ok r) :
    consumeChunk now chunk s =
      .ok ⟨(stampActivity now chunk r.state).setConsuming false, r.frames, (stalenessCheck now s).2 ++ r.events⟩ := by
  rw [consumeChunk, hr]

/-- Settles O33: the staleness check, the PUSHes inside the CONSUME that has begun, and the timestamp. -/
theorem consumeRunsItsProcedure : Obligations.ConsumeRunsItsProcedure := by
  intro s now chunk hi hd
  obtain ⟨hstale, hkept⟩ := stalenessCheck_inOrder hd
  obtain ⟨hcfg, -, hla, hst, -, -, hres, -⟩ := stalenessCheck_frame now s
  have hbegun : ((stalenessCheck now s).1.setConsuming true).BufferInv :=
    (stalenessCheck_inv hi.toBufferInv).congr rfl rfl rfl
  obtain ⟨r, hr⟩ := pushBytes_total chunk hbegun
  have hf := pushBytes_frame hr
  obtain ⟨rs, hpushes⟩ := pushes_of_pushBytes rfl hr
  refine ⟨_, (stalenessCheck now s).2, _, r.frames, r.events,
    ⟨fun h => by rw [hstale h]; exact ⟨rfl, rfl⟩, fun h => by rw [hkept h]; exact ⟨rfl, rfl⟩⟩, hpushes, ?_⟩
  rw [exec_consume_caller (consumeChunk_of_pushesInside hr)]
  congr 1
  apply State.eq_of_fields <;>
    simp [State.withTrace, stampActivity_lastActivity, stampActivity_stamped, hf.cfg, hf.lastActivity, hf.stamped,
      hf.results, hcfg, hla, hst, hres]

/-! ### A stale buffer, and an empty chunk -/

/-- Where the gap exceeds the window CONSUME does what it does from the emptied buffer, after DROP_STALE. -/
theorem consumeChunk_of_stale (h0 : s.len ≠ 0) (hd : EnvironmentDuty now s)
    (hs : s.cfg.staleWindow < clockReading s.cfg now - s.lastActivity)
    (h : consumeChunk now chunk (s.setLen 0) = .ok q) :
    consumeChunk now chunk s = .ok ⟨q.state, q.frames, .dropStale s.len :: q.events⟩ := by
  have hstale := stalenessCheck_stale h0 hd hs
  have hempty : NoStaleGap now (s.setLen 0) := .inl rfl
  obtain ⟨r, hr, rfl⟩ := consumeChunk_cases h
  rw [stalenessCheck_none hempty] at hr ⊢
  have hr' : pushBytes chunk (stalenessCheck now s).1 = .ok r := by rwa [hstale]
  rw [consumeChunk_of_pushes hr', hstale]
  rfl

/-- Settles O34: the run from the emptied buffer, DROP_STALE ahead of its events. -/
theorem staleBufferIsDiscardedFirst : Obligations.StaleBufferIsDiscardedFirst := by
  intro s now chunk hi h0 hd hs
  obtain ⟨q, hq, -⟩ := consumeChunk_total now chunk hi.appending.emptied
  obtain ⟨-, -, hres⟩ := consumeChunk_frame hq
  refine ⟨_, _, _, exec_consume_caller hq, consumeChunk_record_results hq _, ?_⟩
  rw [exec_consume_caller (consumeChunk_of_stale h0 hd hs hq), State.record, hres]
  rfl

/-- With an empty chunk CONSUME is the staleness check alone. -/
theorem consumeChunk_nil (now : Nat) (s : State) :
    consumeChunk now [] s = .ok ⟨(stalenessCheck now s).1.setConsuming false, [], (stalenessCheck now s).2⟩ := by
  rw [consumeChunk_of_pushes (pushBytes_nil _), List.append_nil]
  rfl

/-- Between operations the operation CONSUME on an empty chunk is the staleness check alone. -/
theorem exec_consume_nil (hc : s.consuming = false) : exec (.consume .caller now []) s =
    .next ((stalenessCheck now s).1.record (.consumed [] (stalenessCheck now s).2)) := by
  obtain ⟨-, -, -, -, hcons, -⟩ := stalenessCheck_frame now s
  rw [exec_consume_caller (consumeChunk_nil now s), State.setConsuming_self (hcons.trans hc)]

/-- Settles O35: the staleness check inside the window and beyond it. -/
theorem emptyChunkOnlyChecksStaleness : Obligations.EmptyChunkOnlyChecksStaleness := by
  refine fun s now hc => ⟨fun hn => ?_, fun h0 hd hs => ?_⟩
  · rw [exec_consume_nil hc, stalenessCheck_none hn]
    rfl
  · rw [exec_consume_nil hc, stalenessCheck_stale h0 hd hs]
    rfl

/-- Where the clock stands before `last_activity` the check keeps the buffer or discards it, and uses one draw
(42_reassembler.md R152; log 7). -/
theorem stalenessCheck_backward (h0 : s.len ≠ 0) (hb : clockReading s.cfg now < s.lastActivity) :
    stalenessCheck now s = (s.advanceDraws, []) ∨
      stalenessCheck now s = (s.advanceDraws.setLen 0, [.dropStale s.len]) := by
  have hc : clockInOrder now s = false := by simpa [clockInOrder] using hb
  unfold stalenessCheck
  rw [if_neg h0]
  cases isStale now s with
  | false => exact .inl (by simp [hc])
  | true => exact .inr (by simp [hc])

/-- Settles O37: the two outcomes of the staleness check. -/
theorem backwardClockLeavesStalenessFree : Obligations.BackwardClockLeavesStalenessFree := by
  intro s now hc h0 hb
  rw [exec_consume_nil hc]
  obtain hk | hk := stalenessCheck_backward h0 hb <;> rw [hk]
  · exact .inl rfl
  · exact .inr rfl

/-- With the clock in order, the buffer's length after the staleness check. -/
theorem stalenessCheck_len (hd : EnvironmentDuty now s) : (stalenessCheck now s).1.len =
    if s.cfg.staleWindow < clockReading s.cfg now - s.lastActivity then 0 else s.len := by
  obtain ⟨hstale, hkept⟩ := stalenessCheck_inOrder fun _ => hd
  by_cases h : s.len ≠ 0 ∧ s.cfg.staleWindow < clockReading s.cfg now - s.lastActivity
  · rw [hstale h, if_pos h.2, State.setLen_len]
  · rw [hkept h]
    split
    · exact by_contra fun h0 => h ⟨h0, ‹_›⟩
    · rfl

/-- What CONSUME emits and leaves in the buffer depends on the buffer as the staleness check leaves it. -/
theorem consumeChunk_of_checked {t : State} (h : consumeChunk now chunk s = .ok q) (hcfg : t.cfg = s.cfg)
    (hbuf : t.buf = s.buf) (hlen : (stalenessCheck now t).1.len = (stalenessCheck now s).1.len) :
    ∃ v es, consumeChunk now chunk t = .ok ⟨v, q.frames, es⟩ ∧ v.buf = q.state.buf ∧ v.len = q.state.len := by
  obtain ⟨r, hr, rfl⟩ := consumeChunk_cases h
  obtain ⟨hcs, hbs, -⟩ := stalenessCheck_frame now s
  obtain ⟨hct, hbt, -⟩ := stalenessCheck_frame now t
  have hp := pushBytes_of_sameBuffer hr (hct.trans (hcfg.trans hcs.symm)) (hbt.trans (hbuf.trans hbs.symm)) hlen
  have hconsume := consumeChunk_of_pushes hp
  exact ⟨_, _, hconsume, by simp, by simp⟩

/-- A gap beyond the window is beyond it at every later time, so a check ahead of another does not change what that one
leaves of the buffer. -/
theorem stalenessCheck_len_later {t : State} {later : Nat} (hb : s.cfg.timeBits = none) (hnow : s.lastActivity ≤ now)
    (hlater : now ≤ later) (hcfg : t.cfg = s.cfg) (hla : t.lastActivity = s.lastActivity)
    (hlen : t.len = (stalenessCheck now s).1.len) :
    (stalenessCheck later t).1.len = (stalenessCheck later s).1.len := by
  have hread : ∀ n, clockReading s.cfg n = n := clockReading_unbounded hb
  have hdNow : EnvironmentDuty now s := by rwa [EnvironmentDuty, hread]
  have hd : EnvironmentDuty later s := by rw [EnvironmentDuty, hread]; omega
  have hdt : EnvironmentDuty later t := by rwa [EnvironmentDuty, hcfg, hla]
  rw [stalenessCheck_len hdt, stalenessCheck_len hd, hlen, stalenessCheck_len hdNow, hcfg, hla, hread, hread]
  by_cases hw : s.cfg.staleWindow < later - s.lastActivity
  · rw [if_pos hw, if_pos hw]
  · rw [if_neg hw, if_neg hw, if_neg (by omega)]

/-- What an empty chunk leaves, whether a CONSUME was under way or not: the staleness check's `len`, and of the rest
everything that a later CONSUME looks at. -/
theorem exec_consume_nil_next (now : Nat) (s : State) :
    ∃ t, exec (.consume .caller now []) s = .next t ∧ t.cfg = s.cfg ∧ t.buf = s.buf ∧
      t.lastActivity = s.lastActivity ∧ t.len = (stalenessCheck now s).1.len := by
  obtain ⟨hcfg, hbuf, hla, -⟩ := stalenessCheck_frame now s
  exact ⟨_, exec_consume_caller (consumeChunk_nil now s), hcfg, hbuf, hla, rfl⟩

/-- Settles O36: after its own staleness check the second CONSUME has the buffer it would have without the first. -/
theorem emptyChunkLeavesLaterFramesAlone : Obligations.EmptyChunkLeavesLaterFramesAlone := by
  intro s now later chunk hi hb hnow hlater hne
  obtain ⟨t, ht, hcfg, hbuf, hla, hlen⟩ := exec_consume_nil_next now s
  obtain ⟨q, hq, -⟩ := consumeChunk_total later chunk hi.toBufferInv
  obtain ⟨v, es, hv, hvbuf, hvlen⟩ :=
    consumeChunk_of_checked hq hcfg hbuf (stalenessCheck_len_later hb hnow hlater hcfg hla hlen)
  refine ⟨t, _, _, _, _, _, ht, exec_consume_caller hv, consumeChunk_record_results hv _, exec_consume_caller hq,
    consumeChunk_record_results hq _, hvbuf.symm, hvlen.symm, ?_⟩
  rw [State.record_lastActivity, State.record_lastActivity, consumeChunk_lastActivity hq, consumeChunk_lastActivity hv,
    if_neg hne, if_neg hne, hcfg]

end Sys2Proof.Machine
end

section
/-! PROOFS. The statements about runs of bytes (42_reassembler.md R145, R147, R149, R150, R151) and a received frame
(R144). What a run of PUSHes does from EMPTY is said first: it passes a frame whole, or discards a buffer whose length
byte it cannot meet. -/

namespace Sys2Proof.Machine

open Spec (Feeds NoCompletion Paced ReadsByPosition Sized joined)

variable {s : State} {now : Nat} {chunk f bytes : List Byte} {l : Byte} {r : RsmResult}

/-! ### Runs from EMPTY -/

/-- In EMPTY the buffer has no contents. -/
theorem bufferContents_empty (h0 : s.len = 0) : bufferContents s = .ok [] :=
  bufferContents_ok_iff.mpr ⟨h0.symm, by simp⟩

/-- The run of PUSHes over a sequence is the run over all but its last byte and then the last PUSH. -/
theorem pushBytes_concat {b : Byte} {p : PushResult} (hr : pushBytes chunk s = .ok r)
    (hp : pushByte b r.state = .ok p) :
    pushBytes (chunk ++ [b]) s = .ok ⟨p.state, r.frames ++ p.frame.toList, r.events ++ p.event.toList⟩ := by
  have hlast := pushBytes_cons_ok.mpr ⟨p, _, hp, pushBytes_nil _, rfl⟩
  simpa using pushBytes_append hr hlast

/-- From EMPTY all but the last of the bytes that start with the marker fill the buffer, where they stay within the cap
and are fewer than the length byte asks for, or it asks for too few to complete. -/
theorem pushBytes_fills {m : List Byte} {b : Byte} (hs : s.len = 0) (h0 : (m ++ [b])[0]? = some head0)
    (h1 : (m ++ [b])[1]? = some head1) (h2 : (m ++ [b])[2]? = some l) (hmin : 2 ≤ m.length)
    (hcap : m.length ≤ s.cfg.bufCap) (hl : l.toNat < 8 ∨ m.length < l.toNat + 3) :
    ∃ t, pushBytes m s = .ok ⟨t, [], []⟩ ∧ bufferContents t = .ok m ∧ t.len = m.length ∧ t.cfg = s.cfg ∧
      (2 < m.length → t.holds 2 l) := by
  have hstart : ∀ i, i < m.length → m[i]? = (m ++ [b])[i]? := fun i hi => (List.getElem?_append_left hi).symm
  have hlength : ∀ v, m[2]? = some v → v.toNat < 8 ∨ m.length < v.toNat + 3 := by
    intro v hv
    rw [hstart 2 (List.getElem?_eq_some_iff.mp hv).1, h2] at hv
    exact Option.some.inj hv ▸ hl
  obtain ⟨t, ht, hm⟩ := pushBytes_keeps m s [] (bufferContents_empty hs) hcap
    (fun _ => (hstart 0 (by omega)).trans h0) (fun _ => (hstart 1 (by omega)).trans h1) hlength
  obtain ⟨hlen, hholds⟩ := bufferContents_ok_iff.mp hm
  exact ⟨t, ht, hm, hlen.symm, (pushBytes_frame ht).cfg, fun h => hholds 2 l ((hstart 2 h).trans h2)⟩

/-- A frame of 11 to BUF_CAP + 1 bytes fed from EMPTY is emitted whole and alone: its last byte completes it
(42_reassembler.md R149). -/
theorem pushBytes_sized (hs : s.len = 0) (hf : Sized f) (hmin : 11 ≤ f.length) (hmax : f.length ≤ s.cfg.bufCap + 1) :
    ∃ t, pushBytes f s = .ok ⟨t, [f], []⟩ ∧ t.len = 0 := by
  obtain rfl | ⟨m, b, rfl⟩ := f.eq_nil_or_concat'
  · simp at hmin
  obtain ⟨h0, h1, l, h2, hl⟩ := hf
  rw [List.length_append, List.length_singleton] at hmin hmax hl
  obtain ⟨t, ht, hm, hlen, hcfg, hholds⟩ := pushBytes_fills hs h0 h1 h2 (by omega) (by omega) (.inr (by omega))
  have h10 : checkFloor < t.len + 1 := by rw [checkFloor]; omega
  have hp := pushByte_completes (b := b) hm h10 (by rw [hcfg]; omega) (hholds (by omega)) (by rw [hlen]; exact hl)
  exact ⟨_, pushBytes_concat ht hp, rfl⟩

/-- BUF_CAP + 1 bytes that start with the marker and whose length byte is below 8 or asks for more are discarded: the
last one passes the cap and completes nothing (42_reassembler.md R149, R150). -/
theorem pushBytes_unmatchable (hs : s.len = 0) (h0 : bytes[0]? = some head0) (h1 : bytes[1]? = some head1)
    (h2 : bytes[2]? = some l) (hsize : bytes.length = s.cfg.bufCap + 1)
    (hl : l.toNat < 8 ∨ s.cfg.bufCap + 1 < l.toNat + 3) :
    ∃ t, pushBytes bytes s = .ok ⟨t, [], [.dropOverflow (s.cfg.bufCap + 1)]⟩ ∧ t.len = 0 := by
  obtain rfl | ⟨m, b, rfl⟩ := bytes.eq_nil_or_concat'
  · simp at hsize
  have hmin : 2 < (m ++ [b]).length := (List.getElem?_eq_some_iff.mp h2).1
  rw [List.length_append, List.length_singleton] at hsize hmin
  obtain ⟨t, ht, -, hlen, hcfg, hholds⟩ := pushBytes_fills hs h0 h1 h2 (by omega) (by omega) (by omega)
  have hfull : t.len = t.cfg.bufCap := by rw [hcfg]; omega
  have hn : NoCompletion t := by
    by_cases h10 : t.len + 1 ≤ 10
    · exact .inl h10
    · exact .inr ⟨l, hholds (by omega), by omega⟩
  have hp := pushByte_overflows (b := b) (by omega) (by omega) hfull (notComplete_appended hn)
  have hrun := pushBytes_concat ht hp
  rw [hfull, hcfg] at hrun
  exact ⟨_, hrun, rfl⟩

/-- Some non-empty first part of bytes that would pass the cap empties the buffer: each PUSH that does not makes it one
byte longer, and it holds at most BUF_CAP bytes (42_reassembler.md R145). -/
theorem exists_take_empties (hi : s.BufferInv) (hlen : s.cfg.bufCap < s.len + bytes.length) :
    ∃ k r, 1 ≤ k ∧ k ≤ bytes.length ∧ pushBytes (bytes.take k) s = .ok r ∧ r.state.len = 0 := by
  induction bytes generalizing s with
  | nil => exact absurd hlen hi.lenCap.not_gt
  | cons b bs ih =>
    obtain ⟨p, hp⟩ := pushByte_total b hi
    obtain h0 | hgrown := pushByte_len hp
    · exact ⟨1, _, le_rfl, by simp, pushBytes_cons_ok.mpr ⟨p, _, hp, pushBytes_nil _, rfl⟩, h0⟩
    · rw [List.length_cons] at hlen ⊢
      obtain ⟨k, r, -, hk, hr, h0⟩ := ih (pushByte_inv hi hp) (by rw [(pushByte_frame hp).cfg, hgrown]; omega)
      exact ⟨k + 1, _, by omega, by omega, pushBytes_cons_ok.mpr ⟨p, r, hp, hr, rfl⟩, h0⟩

/-! ### CONSUME of a run -/

/-- With no stale gap the operation CONSUME hands back the frames and events of its PUSHes and leaves the buffer as they
do; the timestamp is then the clock's reading, if there was a byte. -/
theorem exec_consume_of_pushBytes (hn : NoStaleGap now s) (hr : pushBytes chunk s = .ok r) :
    ∃ t, exec (.consume .caller now chunk) s = .next t ∧ t.results = s.results ++ [.consumed r.frames r.events] ∧
      t.buf = r.state.buf ∧ t.len = r.state.len ∧ t.cfg = s.cfg ∧
      t.lastActivity = if chunk = [] then s.lastActivity else clockReading s.cfg now := by
  have hq := consumeChunk_of_noStaleGap hn hr
  exact ⟨_, exec_consume_caller hq, consumeChunk_record_results hq _, by simp, by simp, (consumeChunk_frame hq).1,
    consumeChunk_lastActivity hq⟩

/-- Settles O42: from EMPTY the garbage leaves the state to the bytes after it as it was. -/
theorem leadingGarbageHasNoEffect : Obligations.LeadingGarbageHasNoEffect := by
  intro s now garbage bytes hi h0 hg
  obtain ⟨r, hr⟩ := pushBytes_total bytes hi.toBufferInv
  have hboth := pushBytes_append (pushBytes_garbage garbage s h0 hg) hr
  obtain ⟨t, ht, htres, htbuf, htlen, -⟩ := exec_consume_of_pushBytes (now := now) (.inl h0) hr
  obtain ⟨u, hu, hures, hubuf, hulen, -⟩ := exec_consume_of_pushBytes (now := now) (.inl h0) hboth
  exact ⟨t, u, r.frames, r.events, ht, htres, hu, hures, hubuf.trans htbuf.symm, hulen.trans htlen.symm⟩

/-- Settles O43: the run of PUSHes over the frame. -/
theorem sizedFramePasses : Obligations.SizedFramePasses := by
  intro s now f _ h0 hf hmin hmax
  obtain ⟨_, hr, hempty⟩ := pushBytes_sized h0 hf hmin hmax
  obtain ⟨t, ht, hres, -, hlen, -⟩ := exec_consume_of_pushBytes (now := now) (.inl h0) hr
  exact ⟨t, ht, hres, hlen.trans hempty⟩

/-- Settles O44: the run of PUSHes over the bytes. -/
theorem unmatchableLengthIsDiscardedAtCap : Obligations.UnmatchableLengthIsDiscardedAtCap := by
  intro s now bytes l _ h0 hb0 hb1 hb2 hsize hl
  obtain ⟨_, hr, hempty⟩ := pushBytes_unmatchable h0 hb0 hb1 hb2 hsize hl
  obtain ⟨t, ht, hres, -, hlen, -⟩ := exec_consume_of_pushBytes (now := now) (.inl h0) hr
  exact ⟨t, ht, hres, hlen.trans hempty⟩

/-- Settles O45: the CONSUME of the part that empties the buffer. -/
theorem reassemblerReturnsToEmpty : Obligations.ReassemblerReturnsToEmpty := by
  intro s now bytes hi hn hsize
  obtain ⟨k, r, hk, hmax, hr, hempty⟩ := exists_take_empties hi.toBufferInv (bytes := bytes) (by omega)
  obtain ⟨t, ht, -, -, hlen, -⟩ := exec_consume_of_pushBytes hn hr
  exact ⟨k, t, hk, hmax.trans hsize.le, ht, hlen.trans hempty⟩

/-! ### Chunk boundaries -/

/-- The pieces, fed one after another, emit the frames and leave the buffer of one run of PUSHes over their bytes. -/
def FedAsOneRun (pieces : List (Nat × List Byte)) (s : State) : Prop :=
  ∃ r u, pushBytes (joined pieces) s = .ok r ∧ Feeds pieces s r.frames u ∧ u.buf = r.state.buf ∧ u.len = r.state.len

/-- No pieces are no PUSHes. -/
theorem fedAsOneRun_nil (s : State) : FedAsOneRun [] s :=
  ⟨⟨s, [], []⟩, s, rfl, .nil s, rfl, rfl⟩

/-- A piece ahead, with no stale gap, where what follows is fed as one run from every state the piece can leave. -/
theorem fedAsOneRun_cons {rest : List (Nat × List Byte)} (hi : s.BufferInv) (hb : s.cfg.timeBits = none)
    (hn : NoStaleGap now s) (hne : chunk ≠ [])
    (hrest : ∀ t : State, t.BufferInv → t.cfg = s.cfg → t.lastActivity = now → FedAsOneRun rest t) :
    FedAsOneRun ((now, chunk) :: rest) s := by
  obtain ⟨q, hq⟩ := pushBytes_total chunk hi
  have hf := pushBytes_frame hq
  obtain ⟨t, ht, hres, hbuf, hlen, hcfg, hla⟩ := exec_consume_of_pushBytes hn hq
  have hcfg' : t.cfg = q.state.cfg := hcfg.trans hf.cfg.symm
  rw [if_neg hne, clockReading_unbounded hb] at hla
  obtain ⟨r, u, hr, hfeeds, hubuf, hulen⟩ := hrest t ((pushBytes_inv hi hq).congr hbuf hlen hcfg') hcfg hla
  have hr' := pushBytes_of_sameBuffer hr hcfg'.symm hbuf.symm hlen.symm
  exact ⟨_, u, pushBytes_append hq hr', .cons ht hres hfeeds, hubuf, hulen⟩

/-- Paced pieces find no stale gap on the way (42_reassembler.md R147). -/
theorem fedAsOneRun_paced {pieces : List (Nat × List Byte)} (hi : s.BufferInv) (hb : s.cfg.timeBits = none)
    (hp : Paced s.cfg.staleWindow s.lastActivity pieces) : FedAsOneRun pieces s := by
  induction pieces generalizing s with
  | nil => exact fedAsOneRun_nil s
  | cons piece rest ih =>
    obtain ⟨now, chunk⟩ := piece
    obtain ⟨hnow, hgap, hne, hrest⟩ := hp
    have hn : NoStaleGap now s := by
      rw [NoStaleGap, EnvironmentDuty, clockReading_unbounded hb]
      exact .inr ⟨hnow, hgap⟩
    exact fedAsOneRun_cons hi hb hn hne fun t ht hcfg hla => ih ht (hcfg ▸ hb) (by rwa [hcfg, hla])

/-- Settles O41: the pieces are fed as one run, and so is the one CONSUME. -/
theorem chunkBoundariesDoNotMatter : Obligations.ChunkBoundariesDoNotMatter := by
  intro s now chunk rest hi hb hn hne hp
  obtain ⟨r, u, hr, hfeeds, hubuf, hulen⟩ := fedAsOneRun_cons hi.toBufferInv hb hn hne fun t ht hcfg hla =>
    fedAsOneRun_paced ht (hcfg ▸ hb) (by rwa [hcfg, hla])
  obtain ⟨v, hv, hres, hvbuf, hvlen, -⟩ := exec_consume_of_pushBytes hn hr
  exact ⟨r.frames, u, v, r.events, hfeeds, hv, hres, hvbuf.trans hubuf.symm, hvlen.trans hulen.symm⟩

/-! ### A received frame -/

/-- In layout 0 with VERIFY_CRC = 0 a frame of at least 11 bytes is decoded to the record at its positions. -/
theorem decodeEmitted_sized {cfg : Config} (hlayout : cfg.layout = .layout0) (hv : cfg.verifyCrc = false) (hf : Sized f)
    (hmin : 11 ≤ f.length) : ∃ r, decodeEmitted cfg [f] = .ok ([r], []) ∧ ReadsByPosition 0 f r := by
  obtain ⟨-, -, l, h2, hl⟩ := hf
  have hS := signBytes_of_layout0 hlayout
  have ha : Spec.Accepted (Spec.signBytes cfg) f l := ⟨h2, by omega, by omega⟩
  obtain ⟨r, hr⟩ := exists_readsByPosition ha
  exact ⟨r, by simp [decodeEmitted, decodeFrame_of_noVerify hv ha hr], hS ▸ hr⟩

/-- Settles O49: RX_FRAME is RXPATH, and its one emitted frame is decoded by position. -/
theorem receivedFrameRunsReceivePath : Obligations.ReceivedFrameRunsReceivePath := by
  refine fun s now f hi => ⟨?_, fun h0 hlayout hv hf hmin hmax => ?_⟩
  · obtain ⟨q, r, -, hr⟩ := execConsume_total .decoder now f hi.toBufferInv
    exact ⟨_, hr, hr⟩
  · obtain ⟨_, hrun, hempty⟩ := pushBytes_sized h0 hf hmin hmax
    have hq := consumeChunk_of_noStaleGap (now := now) (.inl h0) hrun
    obtain ⟨r, hdec, hreads⟩ := decodeEmitted_sized hlayout hv hf hmin
    obtain ⟨frames, events, hdec', hrx⟩ := receiveChunk_of_consume hq
    obtain ⟨rfl, rfl⟩ : [r] = frames ∧ [] = events := by simpa [hdec] using hdec'
    exact ⟨_, r, hrx, consumeChunk_record_results hq _, by simp [hempty], hreads⟩

end Sys2Proof.Machine
end

section
/-! PROOFS. The statements about the two paths (43_paths.md R160 to R165). TXPATH is ENCODE with another destination;
RXPATH is CONSUME and then DECODE of its frames. Loop-back is put together from these: the RXPATHs over some pieces hand
up what DECODE makes of the frames that the CONSUMEs over them emit, and over what ENCODE returns that is one frame. -/

namespace Sys2Proof.Machine

open Spec (DecodesEach Feeds PrefixFits Receives Sized answered delivered joined signBytes)

variable {s t : State} {now : Nat} {chunk f : List Byte} {fs : List (List Byte)} {es : List Event} {q : RsmResult}

/-! ### The transmit path -/

/-- An operation answers one result. -/
theorem answer_unique {o : Host.Outcome State Fault Refusal} {r r' : Result} (h : o = .next (s.record r))
    (h' : o = .next (s.record r')) : r = r' :=
  State.record_inj.mp (Host.Outcome.next.inj (h.symm.trans h'))

/-- Settles O17: inside the precondition of ENCODE both destinations get the frame, outside it both get the error. -/
theorem transmitPathSendsWhatEncodeReturns : Obligations.TransmitPathSendsWhatEncodeReturns := by
  intro s reportId p cc ps
  by_cases hfit : ps.length ≤ 247 - signBytes s.cfg ∧ PrefixFits s.cfg p
  · have hrun := fun dest => runEncode_of_fits hfit.1 hfit.2 dest cc s
    refine ⟨fun bytes h => ?_, fun e h => ?_⟩
    · obtain rfl := Result.encoded.inj (answer_unique (hrun .caller) h)
      exact hrun (.transport reportId)
    · exact nomatch answer_unique (hrun .caller) h
  · have hrun := fun dest => runEncode_overflow hfit dest cc s
    refine ⟨fun bytes h => ?_, fun e h => ?_⟩
    · exact nomatch answer_unique (hrun .caller) h
    · exact (hrun (.transport reportId)).trans ((hrun .caller).symm.trans h)

/-! ### The receive path -/

/-- A frame that DECODE makes a record of is handed up ahead of the rest (43_paths.md R162). -/
theorem decodeEmitted_cons_ok {cfg : Config} {r : Frame} {out : List Frame} (hf : decodeFrame cfg f = .ok (.ok r))
    (hfs : decodeEmitted cfg fs = .ok (out, es)) : decodeEmitted cfg (f :: fs) = .ok (r :: out, es) := by
  simp [decodeEmitted, hf, hfs]

/-- A frame whose DECODE raises is dropped with an event, and the rest are still decoded (43_paths.md R163). -/
theorem decodeEmitted_cons_error {cfg : Config} {e : BlockError} {out : List Frame}
    (hf : decodeFrame cfg f = .ok (.error e)) (hfs : decodeEmitted cfg fs = .ok (out, es)) :
    decodeEmitted cfg (f :: fs) = .ok (out, .decodeDropped f e :: es) := by
  simp [decodeEmitted, hf, hfs]

/-- What the receive path makes of emitted frames is what the operation DECODE makes of each. -/
theorem decodeEmitted_decodesEach (s : State) (fs : List (List Byte)) :
    ∃ out dropped, decodeEmitted s.cfg fs = .ok (out, dropped) ∧ DecodesEach s fs out dropped := by
  induction fs with
  | nil => exact ⟨[], [], rfl, .nil⟩
  | cons f fs ih =>
    obtain ⟨out, dropped, hfs, heach⟩ := ih
    obtain ⟨r, hf⟩ := decodeFrame_total s.cfg f
    cases r with
    | ok r => exact ⟨_, _, decodeEmitted_cons_ok hf hfs, .decoded (runDecode_of_ok hf s) heach⟩
    | error e => exact ⟨_, _, decodeEmitted_cons_error hf hfs, .dropped (runDecode_of_error hf s) heach⟩

/-- RXPATH leaves the state of CONSUME, and hands up what the decoder made of its frames (43_paths.md R162). -/
theorem exec_consume_decoder {out : List Frame} {dropped : List Event} (hq : consumeChunk now chunk s = .ok q)
    (hd : decodeEmitted s.cfg q.frames = .ok (out, dropped)) :
    exec (.consume .decoder now chunk) s = .next (q.state.record (.received out (q.events ++ dropped))) := by
  simp [exec, execConsume, receiveChunk, hq, hd]

/-- Settles O46: CONSUME for the caller and for the decoder, and DECODE of each emitted frame. -/
theorem receivePathDecodesEachEmittedFrame : Obligations.ReceivePathDecodesEachEmittedFrame := by
  intro s now chunk hi
  obtain ⟨q, hq, -⟩ := consumeChunk_total now chunk hi.toBufferInv
  obtain ⟨out, dropped, hd, heach⟩ := decodeEmitted_decodesEach s q.frames
  obtain ⟨-, -, hres⟩ := consumeChunk_frame hq
  refine ⟨_, q.frames, q.events, out, dropped, exec_consume_caller hq, consumeChunk_record_results hq _, heach, ?_⟩
  rw [exec_consume_decoder hq hd, State.record, hres]
  rfl

/-! ### Loop-back -/

/-- What a CONSUME that answers the caller has done. -/
theorem exec_consume_caller_next (h : exec (.consume .caller now chunk) s = .next t)
    (hres : t.results = s.results ++ [.consumed fs es]) :
    ∃ v, consumeChunk now chunk s = .ok ⟨v, fs, es⟩ ∧ t = v.record (.consumed fs es) := by
  have hrun : execConsume .caller now chunk s = .next t := h
  obtain ⟨q, x, hq, rfl, -⟩ := execConsume_next hrun
  obtain rfl : x = .consumed fs es := by simpa [(consumeChunk_frame hq).2.2] using hres
  obtain ⟨rfl, rfl⟩ := Result.consumed.inj (answer_unique (exec_consume_caller hq) h)
  exact ⟨q.state, hq, rfl⟩

/-- The RXPATHs over some pieces hand up what DECODE makes of the frames that the CONSUMEs over them emit. The two runs
differ in the trace, which no operation reads. -/
theorem receives_of_feeds {pieces : List (Nat × List Byte)} (h : Feeds pieces s fs t) (rs : List Result)
    (qs : List Request) :
    ∃ out dropped u, decodeEmitted s.cfg fs = .ok (out, dropped) ∧ Receives pieces (s.withTrace rs qs) out u := by
  induction h generalizing rs with
  | nil s => exact ⟨[], [], _, rfl, .nil _⟩
  | @cons now chunk rest s t u fs gs es hexec hres _ ih =>
    obtain ⟨v, hq, rfl⟩ := exec_consume_caller_next hexec hres
    obtain ⟨⟨out, dropped⟩, hd⟩ := decodeEmitted_total s.cfg fs
    obtain ⟨more, lost, w, hmore, hrest⟩ := ih (rs ++ [.received out (es ++ dropped)])
    rw [State.record_cfg, (consumeChunk_frame hq).1] at hmore
    exact ⟨_, _, w, decodeEmitted_append s.cfg hd hmore,
      .cons (exec_consume_decoder (consumeChunk_withTrace hq rs qs) hd) rfl hrest⟩

/-- A built frame has the marker, and the size its length byte gives (30_encoding.md R64). -/
theorem buildFrame_sized {cfg : Config} {ps : List Byte} (hn : ps.length ≤ 247 - signBytes cfg) (cc : Byte) :
    Sized (buildFrame cfg cc ps) := by
  have hreads := buildFrame_reads hn cc
  refine ⟨hreads.head0, hreads.head1, _, hreads.length, ?_⟩
  rw [encodedRecord_length hn, buildFrame_length, Layout.overhead_eq, ← Spec.signBytes_eq]

/-- From EMPTY a frame that passes is emitted whole and alone, whatever bytes without 0x7E come first
(42_reassembler.md R149, R151). -/
theorem pushBytes_garbage_sized {p : List Byte} (h0 : s.len = 0) (hp : head0 ∉ p) (hf : Sized f) (hmin : 11 ≤ f.length)
    (hmax : f.length ≤ s.cfg.bufCap + 1) : ∃ t es, pushBytes (p ++ f) s = .ok ⟨t, [f], es⟩ := by
  obtain ⟨t, ht, -⟩ := pushBytes_sized h0 hf hmin hmax
  exact ⟨t, _, pushBytes_append (pushBytes_garbage p s h0 hp) ht⟩

/-- Settles O48: the pieces are fed as one run, which emits the built frame alone; and RXPATH decodes what is
emitted. -/
theorem loopBackReturnsOperands : Obligations.LoopBackReturnsOperands := by
  intro s p cc ps now chunk rest hi h0 hlayout hb hn hcap hp hgarbage hne hpaced
  have hS := signBytes_of_layout0 hlayout
  have hn' : ps.length ≤ 247 - signBytes s.cfg := by omega
  refine ⟨_, runEncode_of_fits hn' hp .caller cc s, fun hjoin => ?_⟩
  rw [← Spec.buildFrame_eq_frame] at hjoin
  have hlen : (buildFrame s.cfg cc ps).length = ps.length + 11 := by
    rw [buildFrame_length, Layout.overhead_eq, ← Spec.signBytes_eq]
    omega
  obtain ⟨r, _, hr, hfeeds, -⟩ := fedAsOneRun_cons hi.toBufferInv hb (.inl h0) hne fun t ht hcfg hla =>
    fedAsOneRun_paced ht (hcfg ▸ hb) (by rwa [hcfg, hla])
  obtain ⟨_, _, hrun⟩ := pushBytes_garbage_sized h0 hgarbage (buildFrame_sized hn' cc) (by omega) (by omega)
  rw [hjoin, hrun] at hr
  obtain rfl := Except.ok.inj hr
  obtain ⟨out, _, u, hd, hreceives⟩ := receives_of_feeds hfeeds s.results s.requests
  rw [decodeEmitted_cons_ok (decodeFrame_buildFrame hn' cc) rfl] at hd
  obtain ⟨rfl, -⟩ := Prod.mk.inj (Except.ok.inj hd)
  exact ⟨_, u, hreceives, rfl, rfl⟩

end Sys2Proof.Machine
end

section
/-! PROOFS. The statements about the results of operations (60_exceptions.md), and the one about the step (R178, R186).
An operation that does not touch the block's state can do three things: hand back a normal result, use one draw on the
way to it, or raise an error that is its own (`exec_answersOnly`). The other four never raise (`exec_normal`). -/

namespace Sys2Proof.Machine

open Spec (ErrorBelongs MalformedCause PrefixFits ReadsByPosition answered signBytes)

variable {cfg : Config} {s t : State} {i : Instr} {e : BlockError} {bytes : List Byte}

/-! ### The step -/

/-- With no request the block is idle (60_exceptions.md R186). -/
theorem step_of_no_request (h : s.requests = []) : step s = .next s := by
  simp [step, h]

/-- A request that is no operation of the block is refused as such. -/
theorem step_of_undecodable {r : Request} {rest : List Request} {e : DecodeError} (hr : s.requests = r :: rest)
    (hd : decodeRequest r = .error e) : step s = .refused (.undecodable e) := by
  simp [step, hr, hd]

/-- An operation that would overlap an unfinished CONSUME is refused (93_implementation_defined.md U18). -/
theorem step_of_overlap {r : Request} {rest : List Request} (hr : s.requests = r :: rest)
    (hd : decodeRequest r = .ok i) (ho : overlaps i s = true) : step s = .refused .overlap := by
  simp [step, hr, hd, ho]

/-- Settles O4: a decoded operation overlaps a CONSUME exactly where one is under way and the operation is no PUSH. -/
theorem stepRunsDecodedRequest : Obligations.StepRunsDecodedRequest := by
  refine fun s => ⟨fun r rest i hr hd _ hi => ?_,
    fun r rest i hr hd _ hc hi => step_of_overlap hr hd (overlaps_of_consuming hc hi),
    fun r rest e hr hd => step_of_undecodable hr hd, step_of_no_request⟩
  have ho : overlaps i s = false := by
    obtain hc | ⟨b, rfl⟩ := hi
    · exact overlaps_idle hc
    · exact overlaps_push b s
  exact step_of_decoded hr hd ho

/-! ### What an operation that only answers can do -/

/-- The result is a normal one. -/
def Result.Normal (r : Result) : Prop := ∀ e, r ≠ .error e

/-- What can follow on `s` where the block's state is not touched, the errors being among those that `raises` allows:
a normal result, or one for which the transport was called and a draw used, or an error. -/
inductive AnswersOnly (raises : BlockError → Prop) (s : State) : State → Prop where
  | normal {r : Result} : r.Normal → AnswersOnly raises s (s.record r)
  | sent {r : Result} : r.Normal → AnswersOnly raises s (s.advanceDraws.record r)
  | raised {e : BlockError} : raises e → AnswersOnly raises s (s.record (.error e))

section answersOnly
variable {raises : BlockError → Prop} (h : AnswersOnly raises s t)
include h

/-- The block's state, the configuration and the pending requests are what they were. -/
theorem AnswersOnly.frame : t.buf = s.buf ∧ t.len = s.len ∧ t.lastActivity = s.lastActivity ∧
    t.stamped = s.stamped ∧ t.consuming = s.consuming ∧ t.cfg = s.cfg ∧ t.requests = s.requests := by
  cases h with
  | normal _ => exact ⟨rfl, rfl, rfl, rfl, rfl, rfl, rfl⟩
  | sent _ => exact ⟨rfl, rfl, rfl, rfl, rfl, rfl, rfl⟩
  | raised _ => exact ⟨rfl, rfl, rfl, rfl, rfl, rfl, rfl⟩

/-- There is one more result, an error only if `raises` allows it. -/
theorem AnswersOnly.result : ∃ r, t.results = s.results ++ [r] ∧ ∀ e, r = .error e → raises e := by
  cases h with
  | normal hr => exact ⟨_, rfl, fun e he => absurd he (hr e)⟩
  | sent hr => exact ⟨_, rfl, fun e he => absurd he (hr e)⟩
  | raised he => exact ⟨_, rfl, fun e heq => Result.error.inj heq ▸ he⟩

/-- Where the result is an error no draw was used (43_paths.md R160: the transport is not called). -/
theorem AnswersOnly.eq_of_error (he : t.results = s.results ++ [.error e]) : t = answered s (.error e) := by
  cases h with
  | normal hr => exact absurd (by simpa using he) (hr e)
  | sent hr => exact absurd (by simpa using he) (hr e)
  | raised _ =>
    obtain rfl : _ = e := by simpa using he
    rfl

end answersOnly

/-! ### The errors of ENCODE and DECODE -/

/-- A check of DECODE fails for the cause the table gives it (60_exceptions.md R170). -/
theorem checkFrame_cause {kind : MalformedKind} (h : checkFrame cfg bytes = some kind) :
    MalformedCause (signBytes cfg) bytes kind := by
  by_cases h10 : bytes.length < 10
  · obtain rfl : .tooShort = kind := by simpa [checkFrame, decMin, h10] using h
    exact h10
  · have h2 : bytes[2]? = some bytes[2] := List.getElem?_eq_getElem (by omega)
    rw [checkFrame_of_lengthByte h2 (not_lt.mp h10)] at h
    split at h
    · obtain rfl := Option.some.inj h
      exact ⟨_, h2, ‹_›⟩
    · split at h
      · obtain rfl := Option.some.inj h
        exact ⟨_, h2, ‹_›⟩
      · cases h

/-- ENCODE and TXPATH raise nothing but ParameterOverflow, outside their precondition (41_frame_codec.md R101). -/
theorem runEncode_answersOnly {dest : TxDest} {p ps : List Byte} {c : Byte}
    (h : runEncode cfg dest p c ps s = .next t) :
    AnswersOnly (ErrorBelongs (.frameAny c (.build dest p ps)) cfg) s t := by
  by_cases hfit : ps.length ≤ 247 - signBytes cfg ∧ PrefixFits cfg p
  · obtain rfl := Host.Outcome.next.inj ((runEncode_of_fits hfit.1 hfit.2 dest c s).symm.trans h)
    cases dest with
    | caller => exact .normal fun _ => nofun
    | transport _ => exact .sent fun _ => nofun
  · obtain rfl := Host.Outcome.next.inj ((runEncode_overflow hfit dest c s).symm.trans h)
    rw [not_and_or, not_le] at hfit
    exact .raised ⟨p, ps, rfl, rfl, hfit⟩

/-- The mismatch that VERIFY_CRC = 1 reports, with the two values R119 has it record. -/
theorem errorBelongs_mismatch {f : Frame} (c : Byte) (hf : ReadsByPosition (signBytes cfg) bytes f)
    (hv : cfg.verifyCrc = true) (hne : crc16 bytes 2 (f.length.toNat + 1) ≠ f.checksum) :
    ErrorBelongs (.frameAny c (.read bytes)) cfg
      (.checksumMismatch f.checksum (crc16 bytes 2 (f.length.toNat + 1))) := by
  obtain ⟨lo, hi, hlo, hhi, hc⟩ := hf.checksum
  exact ⟨hv, hne.symm, bytes, f.length, lo, hi, rfl, hf.length, hlo, hhi, hc, Spec.crc16_received bytes f.length⟩

/-- DECODE raises MalformedFrame where a check fails, ChecksumMismatch where VERIFY_CRC finds one, and nothing else. -/
theorem runDecode_answersOnly (c : Byte) (h : runDecode cfg bytes s = .next t) :
    AnswersOnly (ErrorBelongs (.frameAny c (.read bytes)) cfg) s t := by
  cases hk : checkFrame cfg bytes with
  | some kind =>
    obtain rfl := Host.Outcome.next.inj ((runDecode_of_malformed hk s).symm.trans h)
    exact .raised ⟨rfl, checkFrame_cause hk⟩
  | none =>
    obtain ⟨l, ha⟩ := Spec.checkFrame_eq_none_iff.mp hk
    obtain ⟨f, hf⟩ := exists_readsByPosition ha
    have hd := decodeFrame_of_reads ha hf
    by_cases hm : cfg.verifyCrc = true ∧ crc16 bytes 2 (f.length.toNat + 1) ≠ f.checksum
    · rw [verifyFrame_mismatch hm.1 hm.2] at hd
      obtain rfl := Host.Outcome.next.inj ((runDecode_of_error hd s).symm.trans h)
      exact .raised (errorBelongs_mismatch c hf hm.1 hm.2)
    · rw [not_and_or, Bool.not_eq_true, not_not] at hm
      rw [verifyFrame_ok hm] at hd
      obtain rfl := Host.Outcome.next.inj ((runDecode_of_ok hd s).symm.trans h)
      exact .normal fun _ => nofun

/-- A frame row answers as ENCODE or as DECODE (log 13). -/
theorem runFrameUse_answersOnly {c : Byte} {use : FrameUse} (h : runFrameUse cfg c use s = .next t) :
    AnswersOnly (ErrorBelongs (.frameAny c use) cfg) s t := by
  cases use with
  | build dest p ps => exact runEncode_answersOnly h
  | read bytes => exact runDecode_answersOnly c h

/-- A frame row always answers. -/
theorem runFrameUse_next (cfg : Config) (c : Byte) (use : FrameUse) (s : State) :
    ∃ t, runFrameUse cfg c use s = .next t := by
  obtain ⟨r, h | h⟩ := runFrameUse_spec cfg c use s <;> exact ⟨_, h⟩

/-! ### What every operation answers -/

/-- CRC16 that answers hands back its checksum. -/
theorem execCrc16_next {start stop : Nat} (h : execCrc16 bytes start stop s = .next t) :
    t = s.record (.crc (crc16 bytes start stop)) := by
  unfold execCrc16 at h
  split at h
  · exact (Host.Outcome.next.inj h).symm
  · cases h

/-- An operation with no effect on the block's state only answers, and the errors it raises are its own. -/
theorem exec_answersOnly (hp : Spec.Pure i) (h : exec i s = .next t) : AnswersOnly (ErrorBelongs i s.cfg) s t := by
  -- ENCODE, DECODE and the rows run what FRAME_ANY runs, FRAME_LAYOUT1 in layout 1; so their errors are its errors.
  cases i with
  | reset => cases hp
  | crc16 bytes start stop =>
    obtain rfl := execCrc16_next h
    exact .normal fun _ => nofun
  | encode dest p c ps => exact runEncode_answersOnly h
  | decode bytes => exact runDecode_answersOnly 0 h
  | consume dest now chunk => cases hp
  | push b => cases hp
  | opselReserved sel => cases h
  | tagFeedback use => exact runFrameUse_answersOnly h
  | readTag use => exact runFrameUse_answersOnly h
  | readBlock use => exact runFrameUse_answersOnly h
  | writeBlock use => exact runFrameUse_answersOnly h
  | frameAny c use => exact runFrameUse_answersOnly h
  | frameLayout1 c use => exact runFrameUse_answersOnly h
  | rxFrame now frame => cases hp

/-- CONSUME and RXPATH hand back one normal result. -/
theorem execConsume_normal {dest : RxDest} {now : Nat} {chunk : List Byte}
    (h : execConsume dest now chunk s = .next t) :
    ∃ r, t.results = s.results ++ [r] ∧ t.requests = s.requests ∧ r.Normal := by
  obtain ⟨q, r, hq, rfl, hr⟩ := execConsume_next h
  obtain ⟨-, hreq, hres⟩ := consumeChunk_frame hq
  exact ⟨r, congrArg (· ++ [r]) hres, hreq, hr⟩

/-- RESET, CONSUME, PUSH and a received frame hand back one normal result (60_exceptions.md R170: none of them has an
error result). -/
theorem exec_normal (hp : ¬Spec.Pure i) (h : exec i s = .next t) :
    ∃ r, t.results = s.results ++ [r] ∧ t.requests = s.requests ∧ r.Normal := by
  cases i with
  | reset =>
    obtain rfl := Host.Outcome.next.inj h
    exact ⟨_, rfl, rfl, fun _ => nofun⟩
  | consume dest now chunk => exact execConsume_normal h
  | push b =>
    obtain ⟨-, p, hpush, rfl⟩ := execPush_next h
    have hf := pushByte_frame hpush
    exact ⟨_, congrArg (· ++ [_]) hf.results, hf.requests, fun _ => nofun⟩
  | rxFrame now frame => exact execConsume_normal (dest := .decoder) h
  | _ => exact absurd trivial hp

/-- Settles O53: every other operation only answers. -/
theorem pureOperationsLeaveBlockState : Obligations.PureOperationsLeaveBlockState :=
  fun _ _ _ hp h => (exec_answersOnly hp h).frame

/-- Settles O54: an operation that only answers raises its own errors, and the others raise none. -/
theorem everyOperationHasOneResult : Obligations.EveryOperationHasOneResult := by
  intro i s t h
  by_cases hp : Spec.Pure i
  · have ha := exec_answersOnly hp h
    obtain ⟨r, hres, he⟩ := ha.result
    obtain ⟨-, -, -, -, -, -, hreq⟩ := ha.frame
    exact ⟨r, hres, hreq, he⟩
  · obtain ⟨r, hres, hreq, hr⟩ := exec_normal hp h
    exact ⟨r, hres, hreq, fun e he => absurd he (hr e)⟩

/-- Settles O56: only an operation that leaves the block's state alone raises. -/
theorem errorsChangeNothing : Obligations.ErrorsChangeNothing := by
  intro i s t e h he
  by_cases hp : Spec.Pure i
  · exact (exec_answersOnly hp h).eq_of_error he
  · obtain ⟨r, hres, -, hr⟩ := exec_normal hp h
    exact absurd (by simpa [he, eq_comm] using hres) (hr e)

/-- A frame row has no effect on the block's state, and always answers. -/
theorem frameRow_pure_and_next {cc : Byte} {use : FrameUse} (s : State)
    (hi : i ∈ [.tagFeedback use, .readTag use, .readBlock use, .writeBlock use, .frameAny cc use,
      .frameLayout1 cc use]) : Spec.Pure i ∧ ∃ t, exec i s = .next t := by
  simp only [List.mem_cons, List.not_mem_nil, or_false] at hi
  obtain rfl | rfl | rfl | rfl | rfl | rfl := hi <;> exact ⟨trivial, runFrameUse_next _ _ use s⟩

/-- Settles O27: a frame row answers, and so has one result (O54) and leaves the block's state alone (O53). -/
theorem frameRowsAlwaysAnswer : Obligations.FrameRowsAlwaysAnswer := by
  intro s cc use i hi
  obtain ⟨hp, t, h⟩ := frameRow_pure_and_next s hi
  obtain ⟨r, hres, -, -⟩ := everyOperationHasOneResult i s t h
  obtain ⟨hbuf, hlen, hact, hst, hcons, hcfg, hreq⟩ := pureOperationsLeaveBlockState i s t hp h
  exact ⟨r, t, h, hres, hcfg, hbuf, hlen, hact, hst, hcons, hreq⟩

end Sys2Proof.Machine
end

section
/-! PROOFS. The statement about RESET (70_reset_and_hazards.md R200). -/

namespace Sys2Proof.Machine

variable {s : State}

/-- The byte machine is in EMPTY exactly where `len` is 0 (10_state.md R24). -/
theorem State.fsm_eq_empty_iff : s.fsm = .empty ↔ s.len = 0 := by
  constructor
  · intro h
    unfold State.fsm at h
    split at h
    case h_1 hlen => exact hlen
    all_goals cases h
  · intro h
    simp [State.fsm, h]

/-- RESET always answers: `len` set to 0, the timestamp's mark cleared, the result handed back. -/
theorem exec_reset_eq (s : State) : exec .reset s = .next ((s.setLen 0).forgetActivity.record .done) := by
  simp [exec, execReset]

/-- Settles O1: the three updates of RESET, the record of `exec_reset_eq` written out; with `len` = 0 the state is
EMPTY. -/
theorem resetClearsOnlyFillCount : Obligations.ResetClearsOnlyFillCount := by
  refine fun s => ⟨exec_reset_eq s, fun t h => ?_⟩
  obtain rfl := Host.Outcome.next.inj ((exec_reset_eq s).symm.trans h)
  exact State.fsm_eq_empty_iff.mpr rfl

end Sys2Proof.Machine
end
